-- ==== Sys2Proof/Word.lean ====
section
/-! DEFINITION. The machine integer and the text types. 00_scope.md R9, section 5.1; 30_encoding.md R51. -/

namespace Sys2Proof

/-! A machine integer (R9), the value of a cell, of a resolved operand, of the instruction counter, is an
`Int`: the integer it denotes. No instruction looks at its bits or bytes (R39), and `XLEN = ∞` must be an
instance (R9). That it stays inside `INT_MIN .. INT_MAX` is an invariant (`Machine.State.Inv`), not part of
the type. DESIGN CHOICE, log entry 1. -/

/-- A line: a finite string of characters, index 0 leftmost (R40, R51). Log entry 10. -/
abbrev Line := List Char

/-- A token of a line (R54). -/
abbrev Token := List Char

end Sys2Proof
end

