-- ==== Sys2Proof/Syntax.lean ====
section
/-! DEFINITION. The instruction syntax: one constructor of `Instr` for each of the nineteen rows of
spec/opcode_table.json (30_encoding.md R63, R66, R74). An operand that does not parse stays in the
syntax as such, because a bad line raises its condition only when it is executed (46_engine_loop.md
R124). -/

namespace Sys2Proof

/-- The sixteen mnemonics (R66), upper case in the text of a line. -/
inductive Opcode where
  | mov | add | sub | mul | div | mod | cmp
  | jmp | jl | jg | jle | jge | je | jne
  | int | hlt
deriving DecidableEq, Repr

/-- A source operand token as read by `Resolve` (R64, R75), before the checks that depend on `XLEN`
and `MEMSIZE`. -/
inductive Src where
  /-- An immediate: the mathematical integer its text denotes (R65). -/
  | imm (v : Int)
  /-- Memory-indirect `[i]`: the index as a mathematical integer, negative ones included (R76). -/
  | cell (i : Int)
  /-- Absent, or neither an integer literal nor a bracketed integer literal (R70 a, b, d). -/
  | malformed
deriving DecidableEq, Repr

/-- A bracketed source operand, the only kind the print-value form of INT has (R63, R106). -/
inductive Ref where
  | cell (i : Int)
  /-- Bracketed, but the inner text is no integer literal (R70 d). -/
  | malformed
deriving DecidableEq, Repr

/-- A destination operand token as read by `Dest` (R64, R77), before the bounds check. -/
inductive Dst where
  | cell (i : Int)
  /-- Absent, not bracketed, or the inner text is no integer literal (R70 f). -/
  | invalid
deriving DecidableEq, Repr

/-- The instructions. `surplus` says that tokens remain after the format's last operand (R68, R70 g);
the format IOPT and the blank line have none. -/
inductive Instr where
  /-- MOV, format DS (R83). -/
  | mov (dest : Dst) (src : Src) (surplus : Bool)
  /-- ADD, format DSS (R84). -/
  | add (dest : Dst) (src1 src2 : Src) (surplus : Bool)
  /-- SUB, format DSS (R85). -/
  | sub (dest : Dst) (src1 src2 : Src) (surplus : Bool)
  /-- MUL, format DSS (R86). -/
  | mul (dest : Dst) (src1 src2 : Src) (surplus : Bool)
  /-- DIV, format DSS (R87). -/
  | div (dest : Dst) (src1 src2 : Src) (surplus : Bool)
  /-- MOD, format DSS (R88). -/
  | mod (dest : Dst) (src1 src2 : Src) (surplus : Bool)
  /-- CMP, format SS (R93). -/
  | cmp (arg1 arg2 : Src) (surplus : Bool)
  /-- JMP, format T (R96). -/
  | jmp (target : Src) (surplus : Bool)
  /-- JL, format T (R97). -/
  | jl (target : Src) (surplus : Bool)
  /-- JG, format T (R98). -/
  | jg (target : Src) (surplus : Bool)
  /-- JLE, format T (R99). -/
  | jle (target : Src) (surplus : Bool)
  /-- JGE, format T (R100). -/
  | jge (target : Src) (surplus : Bool)
  /-- JE, format T (R101). -/
  | je (target : Src) (surplus : Bool)
  /-- JNE, format T (R102). -/
  | jne (target : Src) (surplus : Bool)
  /-- INT, print-value form, format IOPV (R106). -/
  | intPrintValue (ref : Ref) (surplus : Bool)
  /-- INT, print-text form, format IOPT (R107): the text tokens `T[2] .. T[n-1]`, verbatim. -/
  | intPrintText (text : List Token)
  /-- INT, input form, format IOIN (R108). `T[1]` is ignored (R67), so it is not kept. -/
  | intInput (dest : Dst) (surplus : Bool)
  /-- HLT, format Z (R111). -/
  | hlt (surplus : Bool)
  /-- The blank line, format BLANK (R112). -/
  | blankLine
deriving DecidableEq, Repr

end Sys2Proof
end

