-- ==== Sys2Proof/Decode.lean ====
section
/-! DEFINITION. The decoder and the encoder. 30_encoding.md: the string functions R52 to R59, the
opcode map R66, the formats R63, the form of an INT line R67, ill-formed lines R68 to R70. The decoder is
total; the one thing it rejects is an unknown opcode, by name (R69). -/

namespace Sys2Proof

/-! ### The decoder's string functions -/

/-- The six whitespace characters: tab, line feed, vertical tab, form feed, carriage return, space (R52). -/
def isSpace (c : Char) : Bool :=
  c == '\t' || c == '\n' || c == '\x0b' || c == '\x0c' || c == '\x0d' || c == ' '

/-- `Trim` (R53). -/
def trim (s : Line) : Line :=
  ((s.dropWhile isSpace).reverse.dropWhile isSpace).reverse

/-- Puts the non-whitespace character `c` in front of the tokens of the text `rest` that follows it: `c`
begins a token of its own where `rest` is empty or starts with whitespace, and else belongs to the first
token of `rest`. -/
def consToken (c : Char) (rest : Line) (toks : List Token) : List Token :=
  if (rest.head?.map isSpace).getD true then [c] :: toks
  else
    match toks with
    | [] => [[c]]
    | t :: ts => (c :: t) :: ts

/-- `Tokens` (R54): the maximal non-empty runs of non-whitespace characters, left to right. -/
def tokens : Line → List Token
  | [] => []
  | c :: cs => if isSpace c then tokens cs else consToken c cs (tokens cs)

/-- `Strip` (R55): without the last character if that is a comma. -/
def strip (t : Token) : Token :=
  if t.getLast? = some ',' then t.dropLast else t

/-- `IsBracketed` (R56). -/
def isBracketed (u : Token) : Bool :=
  decide (2 ≤ u.length) && u.head? == some '[' && u.getLast? == some ']'

/-- `Inner` (R56): `u[1 : len(u)-1]`. -/
def inner (u : Token) : Token := u.tail.dropLast

/-- The digits `0` to `9` (R51). -/
def isDigit (c : Char) : Bool := decide (48 ≤ c.toNat) && decide (c.toNat ≤ 57)

/-- The number a string of digits denotes in base 10, most significant digit first (R57). -/
def digitsValue (ds : List Char) : Nat :=
  ds.foldl (fun n c => 10 * n + (c.toNat - 48)) 0

/-- One or more digits and nothing else (R57). -/
def parseDigits (ds : List Char) : Option Nat :=
  if ds ≠ [] ∧ ds.all isDigit then some (digitsValue ds) else none

/-- `ParseInt` (R57): an optional sign, then one or more digits; the result is a mathematical integer. -/
def parseInt (s : List Char) : Option Int :=
  match s with
  | [] => none
  | c :: ds =>
    if c = '-' then (parseDigits ds).map fun n : Nat => -(n : Int)
    else if c = '+' then (parseDigits ds).map fun n : Nat => (n : Int)
    else (parseDigits (c :: ds)).map fun n : Nat => (n : Int)

/-- `Upper` (R58), one character: ASCII `a` to `z` only. -/
def upperChar (c : Char) : Char :=
  if 97 ≤ c.toNat ∧ c.toNat ≤ 122 then Char.ofNat (c.toNat - 32) else c

/-- `Upper` (R58). -/
def upper (s : Token) : Token := s.map upperChar

/-- `Join` (R59). -/
def join (sep : List Char) : List Token → List Char
  | [] => []
  | [t] => t
  | t :: u :: ts => t ++ sep ++ join sep (u :: ts)

/-! ### The opcode map -/

/-- The mnemonic of an opcode as text (R66). -/
def Opcode.token : Opcode → Token
  | .mov => ['M', 'O', 'V']
  | .add => ['A', 'D', 'D']
  | .sub => ['S', 'U', 'B']
  | .mul => ['M', 'U', 'L']
  | .div => ['D', 'I', 'V']
  | .mod => ['M', 'O', 'D']
  | .cmp => ['C', 'M', 'P']
  | .jmp => ['J', 'M', 'P']
  | .jl => ['J', 'L']
  | .jg => ['J', 'G']
  | .jle => ['J', 'L', 'E']
  | .jge => ['J', 'G', 'E']
  | .je => ['J', 'E']
  | .jne => ['J', 'N', 'E']
  | .int => ['I', 'N', 'T']
  | .hlt => ['H', 'L', 'T']

/-- The sixteen opcodes in the order of the table of R66. -/
def Opcode.all : List Opcode :=
  [.mov, .add, .sub, .mul, .div, .mod, .cmp, .jmp, .jl, .jg, .jle, .jge, .je, .jne, .int, .hlt]

/-- Opcode selection: the whole token equals the mnemonic, character for character (R62). -/
def selectOpcode (t : Token) : Option Opcode :=
  Opcode.all.find? fun o => o.token == t

/-- The keyword of the print forms of INT (R67). -/
def keywordPrint : Token := ['P', 'R', 'I', 'N', 'T']

/-! ### Operand tokens -/

/-- The part of `Resolve` that looks at the token alone (R75): `none` is an absent token (R68). -/
def decodeSrc : Option Token → Src
  | none => .malformed
  | some t =>
    if isBracketed (strip t) then
      match parseInt (inner (strip t)) with
      | some i => .cell i
      | none => .malformed
    else
      match parseInt (strip t) with
      | some v => .imm v
      | none => .malformed

/-- The same for a token already known to be bracketed (R106). -/
def decodeRef (t : Token) : Ref :=
  match parseInt (inner (strip t)) with
  | some i => .cell i
  | none => .malformed

/-- The part of `Dest` that looks at the token alone (R77). -/
def decodeDst : Option Token → Dst
  | none => .invalid
  | some t =>
    if isBracketed (strip t) then
      match parseInt (inner (strip t)) with
      | some i => .cell i
      | none => .invalid
    else .invalid

/-! ### Lines -/

/-- The form of an INT line from the tokens after the opcode (R67, R105). -/
def decodeInt : List Token → Instr
  | [] => .intInput .invalid false
  | k :: rest =>
    if upper k = keywordPrint then
      match rest with
      | [] => .intPrintText []
      | t :: more =>
        if isBracketed (strip t) then .intPrintValue (decodeRef t) (decide (0 < more.length))
        else .intPrintText (t :: more)
    else .intInput (decodeDst rest[0]?) (decide (1 < rest.length))

/-- The fields of a line with a known opcode (R63): `ts` holds `T[1], T[2], ...`, so `ts[k]?` is
`T[k+1]` or absent, and the line has a surplus token when `ts` is longer than the format's operand
list (R68). -/
def decodeFields (o : Opcode) (ts : List Token) : Instr :=
  match o with
  | .mov => .mov (decodeDst ts[0]?) (decodeSrc ts[1]?) (decide (2 < ts.length))
  | .add => .add (decodeDst ts[0]?) (decodeSrc ts[1]?) (decodeSrc ts[2]?) (decide (3 < ts.length))
  | .sub => .sub (decodeDst ts[0]?) (decodeSrc ts[1]?) (decodeSrc ts[2]?) (decide (3 < ts.length))
  | .mul => .mul (decodeDst ts[0]?) (decodeSrc ts[1]?) (decodeSrc ts[2]?) (decide (3 < ts.length))
  | .div => .div (decodeDst ts[0]?) (decodeSrc ts[1]?) (decodeSrc ts[2]?) (decide (3 < ts.length))
  | .mod => .mod (decodeDst ts[0]?) (decodeSrc ts[1]?) (decodeSrc ts[2]?) (decide (3 < ts.length))
  | .cmp => .cmp (decodeSrc ts[0]?) (decodeSrc ts[1]?) (decide (2 < ts.length))
  | .jmp => .jmp (decodeSrc ts[0]?) (decide (1 < ts.length))
  | .jl => .jl (decodeSrc ts[0]?) (decide (1 < ts.length))
  | .jg => .jg (decodeSrc ts[0]?) (decide (1 < ts.length))
  | .jle => .jle (decodeSrc ts[0]?) (decide (1 < ts.length))
  | .jge => .jge (decodeSrc ts[0]?) (decide (1 < ts.length))
  | .je => .je (decodeSrc ts[0]?) (decide (1 < ts.length))
  | .jne => .jne (decodeSrc ts[0]?) (decide (1 < ts.length))
  | .int => decodeInt ts
  | .hlt => .hlt (decide (0 < ts.length))

/-- Why the decoder gives no instruction. -/
inductive DecodeReject where
  /-- The first token is none of the sixteen mnemonics (R69). Raised by `decodeTokens`. The machine
  goes on: `Machine.rejected`. -/
  | unknownInstruction (opcode : Token)
deriving DecidableEq, Repr

/-- The instruction of a token list (R62, R118). -/
def decodeTokens : List Token → Except DecodeReject Instr
  | [] => .ok .blankLine
  | t :: ts =>
    match selectOpcode t with
    | some o => .ok (decodeFields o ts)
    | none => .error (.unknownInstruction t)

/-- The decoder (R61, R62, R116 to R118): trim, blank test, tokenise, dispatch on the first token. -/
def decode (l : Line) : Except DecodeReject Instr :=
  if trim l = [] then .ok .blankLine else decodeTokens (tokens (trim l))

/-! ### The encoder -/

/-- The character of a decimal digit (R51). -/
def digitChar (n : Nat) : Char := Char.ofNat (48 + n)

/-- Base-10 digits in front of `acc`, at most `fuel` of them. -/
def renderNatAux : Nat → Nat → List Char → List Char
  | 0, _, acc => acc
  | fuel + 1, n, acc =>
    if n < 10 then digitChar n :: acc
    else renderNatAux fuel (n / 10) (digitChar (n % 10) :: acc)

/-- The decimal literal of a natural number, without leading zeros (`log2 n + 1` digits suffice). -/
def renderNat (n : Nat) : List Char := renderNatAux (Nat.log2 n + 1) n []

/-- The decimal literal of an integer (R57). -/
def renderInt : Int → List Char
  | .ofNat n => renderNat n
  | .negSucc n => '-' :: renderNat (n + 1)

/-- The token `[N]` (R64). -/
def bracket (u : List Char) : Token := '[' :: (u ++ [']'])

/-- A token no operand parser accepts; the encoder writes it for an operand that does not parse. -/
def badToken : Token := ['?']

/-- The text of a source operand. -/
def Src.token : Src → Token
  | .imm v => renderInt v
  | .cell i => bracket (renderInt i)
  | .malformed => badToken

/-- The text of a bracketed source operand. -/
def Ref.token : Ref → Token
  | .cell i => bracket (renderInt i)
  | .malformed => bracket badToken

/-- The text of a destination operand. -/
def Dst.token : Dst → Token
  | .cell i => bracket (renderInt i)
  | .invalid => badToken

/-- The canonical spelling puts a comma after every operand but the last (R72). -/
def commaed (t : Token) : Token := t ++ [',']

/-- One token more than the format has, where the instruction says that there is a surplus. -/
def surplusToken (surplus : Bool) : List Token := if surplus then [badToken] else []

/-- Format DS (R63). -/
def tokensDS (o : Opcode) (d : Dst) (s : Src) (sp : Bool) : List Token :=
  [o.token, commaed d.token, s.token] ++ surplusToken sp

/-- Format DSS (R63). -/
def tokensDSS (o : Opcode) (d : Dst) (a b : Src) (sp : Bool) : List Token :=
  [o.token, commaed d.token, commaed a.token, b.token] ++ surplusToken sp

/-- Format T (R63). -/
def tokensT (o : Opcode) (t : Src) (sp : Bool) : List Token :=
  [o.token, t.token] ++ surplusToken sp

/-- The token list of an instruction in the canonical spelling (R63, R66, R72). -/
def Instr.tokens : Instr → List Token
  | .mov d s sp => tokensDS .mov d s sp
  | .add d a b sp => tokensDSS .add d a b sp
  | .sub d a b sp => tokensDSS .sub d a b sp
  | .mul d a b sp => tokensDSS .mul d a b sp
  | .div d a b sp => tokensDSS .div d a b sp
  | .mod d a b sp => tokensDSS .mod d a b sp
  | .cmp a b sp => [Opcode.cmp.token, commaed a.token, b.token] ++ surplusToken sp
  | .jmp t sp => tokensT .jmp t sp
  | .jl t sp => tokensT .jl t sp
  | .jg t sp => tokensT .jg t sp
  | .jle t sp => tokensT .jle t sp
  | .jge t sp => tokensT .jge t sp
  | .je t sp => tokensT .je t sp
  | .jne t sp => tokensT .jne t sp
  | .intPrintValue r sp => [Opcode.int.token, keywordPrint, r.token] ++ surplusToken sp
  | .intPrintText ts => [Opcode.int.token, keywordPrint] ++ ts
  | .intInput d sp => [Opcode.int.token, ['I', 'N', 'P', 'U', 'T'], d.token] ++ surplusToken sp
  | .hlt sp => [Opcode.hlt.token] ++ surplusToken sp
  | .blankLine => []

/-- The encoder: the canonical line of an instruction, tokens separated by single spaces (R72). For an
instruction that is not well-formed it writes a line with the same defects (log entry 27). -/
def encode (i : Instr) : Line := join [' '] i.tokens

/-! ### Lines as numbers -/

/-- A character string as a number, leftmost character most significant (R40, R66, R74). -/
def tokenNumber (t : Token) : Nat := t.foldl (fun n c => 256 * n + c.toNat) 0

/-- The `n` characters of a number of `n` bytes, leftmost character from the most significant byte. -/
def numberChars : Nat → Nat → Line
  | 0, _ => []
  | n + 1, w => Char.ofNat (w / 256 ^ n % 256) :: numberChars n w

/-- The line a table word stands for (R40, R74): its bytes as characters, the most significant first.
A zero byte above the first character is no character, so the empty mask of the blank line and a word
given with a longer `nbits` read the same. Log entry 26. -/
def tableLine (nbits w : Nat) : Line :=
  (numberChars ((nbits + 7) / 8) w).dropWhile fun c => c.toNat == 0

/-- What the decoder reads from a word numbered as spec/opcode_table.json numbers it (R74). -/
def decodeTableWord (nbits w : Nat) : Option Instr :=
  match decode (tableLine nbits w) with
  | .ok i => some i
  | .error _ => none

end Sys2Proof
end

