-- ==== Sys2Proof/Config.lean ====
section
/-! DEFINITION. The parameters of the machine: 00_scope.md section 4, R9 to R13. `INPUT` (R14) is
delivered by the host while the machine runs, so it stands in `Machine.State`. -/

namespace Sys2Proof

/-- `XLEN`: a number of bits, or `XLEN = ∞` (R9). -/
inductive Width where
  | bits (n : Nat)
  | unbounded
deriving DecidableEq, Repr

/-- The flag register: the two stored booleans (R22). `greater` has no storage of its own; it is
`Machine.greater`. -/
structure Flags where
  /-- `LT`, the source's `less`. -/
  less : Bool
  /-- `EQ`, the source's `equal`. -/
  equal : Bool
deriving DecidableEq, Repr

/-- The parameters the host fixes when it constructs the engine (R9 to R13, R16, R147). No step
changes them. -/
structure Params where
  /-- `XLEN` (R9). -/
  xlen : Width
  /-- `MEMSIZE` (R10). -/
  memSize : Nat
  /-- `PROGRAM` (R11, R19); `PROGLEN` is its length. -/
  program : List Line
  /-- `IC_HALT`, what HLT leaves in `pc` (R12). -/
  icHalt : Int
  /-- `FLAGS_RESET` (R13). -/
  flagsReset : Flags
deriving DecidableEq, Repr

/-- `PROGLEN` (R11). -/
def Params.progLen (p : Params) : Nat := p.program.length

/-- The defaults of 00_scope.md section 4: `XLEN = 64` (D1), `IC_HALT = -1` (D6), `FLAGS_RESET = G`
(D5). The spec gives no default for `MEMSIZE` and `PROGRAM`: ten cells, as in the spec's own examples
(95_test_vectors.md part 2), and no line. DESIGN CHOICE, log entry 4. -/
def Params.default : Params where
  xlen := .bits 64
  memSize := 10
  program := []
  icHalt := -1
  flagsReset := ⟨false, false⟩

end Sys2Proof
end

