-- ==== Sys2Proof/Machine/State.lean ====
section
/-! DEFINITION. The architectural state and its reset values: 10_state.md, 60_exceptions.md,
70_reset_and_hazards.md R147 to R149. -/

namespace Sys2Proof.Machine

/-- Data memory (R18): pairs of a cell index and the machine integer in that cell, in the canonical form
`Memory.wf`. A cell not listed holds 0 (R149). A cell is one integer and has no byte view (R39), so the
pairs hold integers and not bytes: log entry 24. -/
abbrev Memory := List (Nat × Int)

/-- The four fatal conditions (R127). -/
inductive Fatal where
  /-- A bracketed source index is negative or `≥ MEMSIZE` (R130). -/
  | outOfBoundsAddress
  /-- A source token is absent, does not parse or is out of range, or a token is surplus (R131). -/
  | malformedOperand
  /-- Every defect of a destination token (R132). -/
  | invalidDestination
  /-- The input record is not a machine integer (R133). -/
  | invalidInput
deriving DecidableEq, Repr

/-- The two recoverable conditions (R127). -/
inductive Recoverable where
  /-- DIV or MOD with a divisor that resolves to 0 (R128). -/
  | divisionByZero
  /-- The first token of the line is none of the sixteen mnemonics (R129). -/
  | unknownInstruction
deriving DecidableEq, Repr

/-- The run state `RS` (R26). -/
inductive RunState where
  | running
  | halted
  | faulted
deriving DecidableEq, Repr

/-- The fault record `FR` (R27). -/
structure FaultRecord where
  reason : Fatal
  /-- `pc` when the faulting line was fetched. -/
  index : Int
  /-- The line as stored in Program, untrimmed. -/
  text : Line
deriving DecidableEq, Repr

/-- A record of the report channel (R31, R140). -/
structure ReportRecord where
  condition : Recoverable
  index : Int
  text : Line
deriving DecidableEq, Repr

/-- A record of the print channel (R29). -/
inductive PrintRecord where
  | value (v : Int)
  | text (s : List Char)
deriving DecidableEq, Repr

/-- An entry of the one event list that holds both output channels in execution order (R140). -/
inductive Event where
  | print (r : PrintRecord)
  | report (r : ReportRecord)
deriving DecidableEq, Repr

/-- The whole state of the machine (10_state.md, table "The whole state, at a glance"), with the
parameters of the run beside it so that a state stands alone (log entry 25). -/
structure State where
  /-- The parameters of the run (R16, R147); no step changes them. -/
  params : Params
  /-- `M` (R18). -/
  mem : Memory
  /-- `pc`, the instruction counter IC (R20). -/
  pc : Int
  /-- The flag register: `LT` and `EQ` (R22). -/
  flags : Flags
  /-- `RS` (R26). -/
  rs : RunState
  /-- `FR` (R27); `none` is the spec's own empty record. -/
  fr : Option FaultRecord
  /-- `INPUT` (R14, R30): the records the host has delivered so far. -/
  input : List Line
  /-- `INPOS` (R30): how many of them have been consumed. -/
  inpos : Nat
  /-- The print and report channels as one list, oldest first (R29, R31, R140); `State.out` and
  `State.rep` are the two traces. Log entry 20. -/
  events : List Event
deriving DecidableEq, Repr

/-- `OUT`, the print channel trace (R29). -/
def State.out (s : State) : List PrintRecord :=
  s.events.filterMap fun e => match e with
    | .print r => some r
    | .report _ => none

/-- `REP`, the report channel trace (R31). -/
def State.rep (s : State) : List ReportRecord :=
  s.events.filterMap fun e => match e with
    | .print _ => none
    | .report r => some r

/-- Why no step exists from a state (R114). Three are the ends of a run (R122), one is the wait for
input (R109). All are raised by `State.noStep` through `step`, or by `execIntInput`, and all are safe:
the spec gives the machine no step there either. -/
inductive Fault where
  /-- The run has ended with the signal Halted (R122, R125). Raised by `step`. Safe. -/
  | runHalted
  /-- The run has ended with the signal Faulted (R122, R125). Raised by `step`. Safe. -/
  | runFaulted
  /-- The run has ended with the signal Completed: `pc` is outside the program (R122). Raised by `step`.
  Safe. -/
  | runCompleted
  /-- An input-form INT waits for a record (R109): neither an end nor a fault of the run; the machine goes
  on from the same state when the host delivers a record. Raised by `execIntInput`. Safe. -/
  | waitingForInput
deriving DecidableEq, Repr

/-- Refusals. -/
inductive Refusal where
  /-- The instruction has no meaning in this model yet. Raised by no arm of `exec`: every instruction is
  modelled. Safe. -/
  | notModelled (mnemonic : String)
deriving DecidableEq, Repr

/-- An outcome of a step. -/
abbrev Res := Host.Outcome State Fault Refusal

/-- Construction of the engine, which is its reset (R34, R147 to R149): the host supplies the parameters,
and has delivered the input records `input`. -/
def State.construct (p : Params) (input : List Line) : State where
  params := p
  mem := []
  pc := 0
  flags := p.flagsReset
  rs := .running
  fr := none
  input := input
  inpos := 0
  events := []

/-- The machine right after reset with the default parameters and no input delivered (R34). -/
def State.reset : State := State.construct Params.default []

end Sys2Proof.Machine
end

