-- ==== Sys2Proof/Machine/Ops.lean ====
section
/-! DEFINITION. The operations instructions share: machine integers (00_scope.md R9, R15), memory
(20_memory.md), fetch and the end of a run (46_engine_loop.md), the channels, entry of a condition
(60_exceptions.md R136, R137). There is no return from a condition (R138). -/

namespace Sys2Proof.Machine

/-! ### Machine integers -/

/-- `INT_MIN` for `XLEN = n` (R9). -/
def intMin (n : Nat) : Int := -((2 ^ (n - 1) : Nat) : Int)

/-- `INT_MAX` for `XLEN = n` (R9). -/
def intMax (n : Nat) : Int := ((2 ^ (n - 1) : Nat) : Int) - 1

/-- `InRange` (00_scope.md section 5.2); always true for `XLEN = ∞` (R9). -/
def inRange (w : Width) (v : Int) : Bool :=
  match w with
  | .bits n => decide (intMin n ≤ v) && decide (v ≤ intMax n)
  | .unbounded => true

/-- `wrap` (R15). -/
def wrap (w : Width) (v : Int) : Int :=
  match w with
  | .bits n => (v + ((2 ^ (n - 1) : Nat) : Int)) % ((2 ^ n : Nat) : Int) - ((2 ^ (n - 1) : Nat) : Int)
  | .unbounded => v

/-- `a // b`, floor division (00_scope.md section 5.1); no rule applies it at `b = 0`. -/
def floorDiv (a b : Int) : Int := Int.fdiv a b

/-- `a mod b = a - b * (a // b)` (00_scope.md section 5.1); no rule applies it at `b = 0`. -/
def floorMod (a b : Int) : Int := a - b * floorDiv a b

/-! ### Memory -/

/-- What a cell that no instruction has written holds (R18, R149). -/
def resetCell : Int := 0

/-- `MemRead(i, 1)` (00_scope.md section 5.2). -/
def Memory.read (m : Memory) (i : Nat) : Int :=
  match m with
  | [] => resetCell
  | (j, v) :: rest => if j = i then v else Memory.read rest i

/-- Puts a pair in front, or leaves it out where the cell would hold what an unlisted cell holds. -/
def Memory.cons (i : Nat) (v : Int) (rest : Memory) : Memory :=
  if v = resetCell then rest else (i, v) :: rest

/-- `MemWrite(i, 1, v)` (00_scope.md section 5.2), keeping the canonical form. -/
def Memory.write (m : Memory) (i : Nat) (v : Int) : Memory :=
  match m with
  | [] => Memory.cons i v []
  | (j, x) :: rest =>
    if i < j then Memory.cons i v ((j, x) :: rest)
    else if i = j then Memory.cons i v rest
    else (j, x) :: Memory.write rest i v

/-- The canonical form: cell indices strictly rising, no listed cell holds the reset value. -/
def Memory.wf (m : Memory) : Bool :=
  match m with
  | [] => true
  | (i, v) :: rest => decide (v ≠ resetCell) && rest.all (fun c => decide (i < c.1)) && Memory.wf rest

/-! ### Fetch, and when a step exists -/

/-- The line at `pc`, if `0 ≤ pc < PROGLEN` (R114, R115). -/
def State.fetch (s : State) : Option Line :=
  if 0 ≤ s.pc then s.params.program[s.pc.toNat]? else none

/-- The text of the line being executed, `PROGRAM[pc]` (R115, R137, R140). Where there is no such line no
step exists, so what it is there (the empty line) is never used by a step: log entry 22. -/
def State.line (s : State) : Line := s.fetch.getD []

/-- Why no step exists from a state, `none` where one exists but for the wait for input (R114, R122,
R125). -/
def State.noStep (s : State) : Option Fault :=
  match s.rs with
  | .halted => some .runHalted
  | .faulted => some .runFaulted
  | .running => match s.fetch with
    | some _ => none
    | none => some .runCompleted

/-- A terminal state: no step exists, for a reason other than waiting for input (R122). -/
def State.terminal (s : State) : Bool :=
  decide (s.rs ≠ .running) || decide (s.pc < 0) || decide ((s.params.progLen : Int) ≤ s.pc)

/-- The termination signals (R122). -/
inductive Signal where
  | completed
  | halted
  | faulted (reason : Fatal)
deriving DecidableEq, Repr

/-- The termination signal of a terminal state, `none` where the state is not terminal (R122). (A state
with `RS = Faulted` and no fault record, which no run reaches, has no reason to report.) -/
def State.signal (s : State) : Option Signal :=
  match s.rs with
  | .halted => some .halted
  | .faulted => s.fr.map fun r => .faulted r.reason
  | .running => match s.fetch with
    | some _ => none
    | none => some .completed

/-- Numbers for the termination signals, for a port that needs them (R134). -/
def Signal.code : Signal → Nat
  | .completed => 0
  | .halted => 1
  | .faulted _ => 2

/-- Numbers for the recoverable conditions (R134). -/
def Recoverable.code : Recoverable → Nat
  | .divisionByZero => 1
  | .unknownInstruction => 2

/-- Numbers for the fatal conditions (R134). -/
def Fatal.code : Fatal → Nat
  | .outOfBoundsAddress => 3
  | .malformedOperand => 4
  | .invalidDestination => 5
  | .invalidInput => 6

/-- A condition of either class (R127). -/
inductive Condition where
  | recoverable (c : Recoverable)
  | fatal (c : Fatal)
deriving DecidableEq, Repr

/-- Numbers for the six conditions (R134). -/
def Condition.code : Condition → Nat
  | .recoverable c => c.code
  | .fatal c => c.code

/-- The number on a condition port: that of the condition, and 0 where there is none (R134). -/
def conditionPort : Option Condition → Nat
  | none => 0
  | some c => c.code

/-- The condition a termination signal carries (R122). -/
def Signal.condition : Signal → Option Condition
  | .completed => none
  | .halted => none
  | .faulted reason => some (.fatal reason)

/-- The condition number that accompanies a termination signal: 3 to 6 with Faulted, 0 with the others
(R134). -/
def Signal.conditionCode (s : Signal) : Nat := conditionPort s.condition

/-! ### Updates of the state -/

/-- `pc <- v`. -/
def State.setPc (s : State) (v : Int) : State := { s with pc := v }

/-- `pc <- pc + 1` (R21). -/
def State.advance (s : State) : State := s.setPc (s.pc + 1)

/-- `MemWrite(i, 1, v)`. -/
def State.writeCell (s : State) (i : Nat) (v : Int) : State := { s with mem := s.mem.write i v }

/-- Both stored flags, together (R24, R160). -/
def State.setFlags (s : State) (f : Flags) : State := { s with flags := f }

/-- `RS <- Halted` with the sentinel in `pc` (R111). -/
def State.halt (s : State) : State := { s with pc := s.params.icHalt, rs := .halted }

/-- `emit` (00_scope.md section 5.2, R29). -/
def State.emit (s : State) (r : PrintRecord) : State := { s with events := s.events ++ [.print r] }

/-- `report` (00_scope.md section 5.2, R140): the condition with `pc` and the line as stored. -/
def State.report (s : State) (c : Recoverable) : State :=
  { s with events := s.events ++ [.report ⟨c, s.pc, s.line⟩] }

/-- The next record of `INPUT`, if there is one (R30). -/
def State.nextRecord (s : State) : Option Line := s.input[s.inpos]?

/-- `INPOS` after a record has been consumed (R30). -/
def State.consume (s : State) : State := { s with inpos := s.inpos + 1 }

/-- The host delivers an input record (R14, R109): the one act of the host while the engine runs. It is no
step of the machine. -/
def State.deliver (s : State) (record : Line) : State := { s with input := s.input ++ [record] }

/-- The program and the `pc` with the line `l` standing where the next step fetches: in place of the line
at `pc`, or, where `pc` names no line, as a new last line to which `pc` is set. -/
def State.withLine (s : State) (l : Line) : State :=
  match s.fetch with
  | some _ => { s with params := { s.params with program := s.params.program.set s.pc.toNat l } }
  | none =>
    { s with
      params := { s.params with program := s.params.program ++ [l] }
      pc := (s.params.program.length : Int) }

/-! ### Entry of a condition -/

/-- Entry of a fatal condition (R137): the fault record and the run state are set, and nothing else. -/
def raise (c : Fatal) (s : State) : Res :=
  .next { s with fr := some ⟨c, s.pc, s.line⟩, rs := .faulted }

/-- Entry of a recoverable condition (R136): one report, then the next line. -/
def recover (c : Recoverable) (s : State) : Res := .next (s.report c).advance

/-- Goes on with a checked value, or raises the condition the checks found. -/
def orRaise {α : Type} (checked : Except Fatal α) (s : State) (k : α → Res) : Res :=
  match checked with
  | .ok a => k a
  | .error c => raise c s

/-- What a line does that the decoder rejects (R113, R129). -/
def rejected (r : DecodeReject) (s : State) : Res :=
  match r with
  | .unknownInstruction _ => recover .unknownInstruction s

end Sys2Proof.Machine
end

