-- ==== Sys2Proof/Machine/Flags.lean ====
section
/-! DEFINITION. The flag computations: the derived flag (10_state.md R22), what CMP writes (42_compare.md
R93), the branch conditions (43_branch.md R96 to R102). -/

namespace Sys2Proof.Machine

/-- `GT = not (LT or EQ)` (R22). -/
def greater (f : Flags) : Bool := !(f.less || f.equal)

/-- The flags after `CMP a, b` (R93). -/
def compareFlags (a b : Int) : Flags :=
  if a < b then ⟨true, false⟩
  else if b < a then ⟨false, false⟩
  else ⟨false, true⟩

/-- JMP (R96). -/
def condAlways (_ : Flags) : Bool := true

/-- JL (R97). -/
def condLess (f : Flags) : Bool := f.less

/-- JG (R98). -/
def condGreater (f : Flags) : Bool := greater f

/-- JLE (R99). -/
def condLessEqual (f : Flags) : Bool := f.less || f.equal

/-- JGE (R100). -/
def condGreaterEqual (f : Flags) : Bool := greater f || f.equal

/-- JE (R101). -/
def condEqual (f : Flags) : Bool := f.equal

/-- JNE (R102). -/
def condNotEqual (f : Flags) : Bool := !f.equal

end Sys2Proof.Machine
end

