-- ==== Sys2Proof/Machine/Operands.lean ====
section
/-! DEFINITION. The operand resolver and the destination parser: 40_operands.md. `Decode.lean` reads the
token; here stand the checks that depend on `XLEN`, `MEMSIZE` and Memory, and the order of checks (R79). -/

namespace Sys2Proof.Machine

/-- Is the mathematical integer `i` the index of a cell (R37, R76)? -/
def inMemory (p : Params) (i : Int) : Bool := decide (0 ≤ i) && decide (i < (p.memSize : Int))

/-- `Resolve` (R75), from a read token. -/
def resolve (s : State) : Src → Except Fatal Int
  | .malformed => .error .malformedOperand
  | .cell i => if inMemory s.params i then .ok (s.mem.read i.toNat) else .error .outOfBoundsAddress
  | .imm v => if inRange s.params.xlen v then .ok v else .error .malformedOperand

/-- A bracketed source operand as a source operand (R106). -/
def refSrc : Ref → Src
  | .cell i => .cell i
  | .malformed => .malformed

/-- `Dest` (R77), from a read token. -/
def destCell (s : State) : Dst → Except Fatal Nat
  | .invalid => .error .invalidDestination
  | .cell i => if inMemory s.params i then .ok i.toNat else .error .invalidDestination

/-- `Resolve(tok)` (R75) from the token itself, `none` being an absent token. -/
def resolveToken (s : State) (t : Option Token) : Except Fatal Int := resolve s (decodeSrc t)

/-- `Dest(tok)` (R77) from the token itself, `none` being an absent token. -/
def destToken (s : State) (t : Option Token) : Except Fatal Nat := destCell s (decodeDst t)

/-- The check for surplus tokens, after every operand (R68, R79). -/
def noSurplus (surplus : Bool) : Except Fatal Unit :=
  if surplus then .error .malformedOperand else .ok ()

/-- The operands of format DS, left to right (R79). -/
def operandsDS (s : State) (d : Dst) (a : Src) (sp : Bool) : Except Fatal (Nat × Int) := do
  let k ← destCell s d
  let x ← resolve s a
  noSurplus sp
  return (k, x)

/-- The operands of format DSS, left to right (R79, R89). -/
def operandsDSS (s : State) (d : Dst) (a b : Src) (sp : Bool) : Except Fatal (Nat × Int × Int) := do
  let k ← destCell s d
  let x ← resolve s a
  let y ← resolve s b
  noSurplus sp
  return (k, x, y)

/-- The operands of format SS, left to right (R79, R93). -/
def operandsSS (s : State) (a b : Src) (sp : Bool) : Except Fatal (Int × Int) := do
  let x ← resolve s a
  let y ← resolve s b
  noSurplus sp
  return (x, y)

/-- The one source operand of formats T and IOPV (R79, R95, R106). -/
def operandS (s : State) (a : Src) (sp : Bool) : Except Fatal Int := do
  let x ← resolve s a
  noSurplus sp
  return x

/-- The one destination operand of format IOIN (R79, R108). -/
def operandD (s : State) (d : Dst) (sp : Bool) : Except Fatal Nat := do
  let k ← destCell s d
  noSurplus sp
  return k

/-- The machine integer an input record denotes, if it is valid (R110). -/
def inputValue (p : Params) (record : Line) : Option Int :=
  match parseInt (trim record) with
  | some v => if inRange p.xlen v then some v else none
  | none => none

/-! ### What an instruction needs of the parameters -/

/-- A source operand raises no condition that depends on `XLEN` or `MEMSIZE` (R70 c, e). -/
def srcFits (p : Params) : Src → Bool
  | .imm v => inRange p.xlen v
  | .cell i => inMemory p i
  | .malformed => true

/-- A destination operand raises no condition that depends on `MEMSIZE` (R70 f). -/
def dstFits (p : Params) : Dst → Bool
  | .cell i => inMemory p i
  | .invalid => true

/-- The same for every operand of an instruction. -/
def instrFits (p : Params) : Instr → Bool
  | .mov d a _ => dstFits p d && srcFits p a
  | .add d a b _ => dstFits p d && srcFits p a && srcFits p b
  | .sub d a b _ => dstFits p d && srcFits p a && srcFits p b
  | .mul d a b _ => dstFits p d && srcFits p a && srcFits p b
  | .div d a b _ => dstFits p d && srcFits p a && srcFits p b
  | .mod d a b _ => dstFits p d && srcFits p a && srcFits p b
  | .cmp a b _ => srcFits p a && srcFits p b
  | .jmp t _ => srcFits p t
  | .jl t _ => srcFits p t
  | .jg t _ => srcFits p t
  | .jle t _ => srcFits p t
  | .jge t _ => srcFits p t
  | .je t _ => srcFits p t
  | .jne t _ => srcFits p t
  | .intPrintValue r _ => srcFits p (refSrc r)
  | .intPrintText _ => true
  | .intInput d _ => dstFits p d
  | .hlt _ => true
  | .blankLine => true

end Sys2Proof.Machine
end

