-- ==== Sys2Proof/Machine/Branch.lean ====
section
/-! DEFINITION. JMP, JL, JG, JLE, JGE, JE, JNE: 43_branch.md. -/

namespace Sys2Proof.Machine

/-- The common sequence (R95): the target is resolved whether or not the branch is taken, and loaded
unchecked (R103). -/
def branch (cond : Flags → Bool) (t : Src) (sp : Bool) (s : State) : Res :=
  orRaise (operandS s t sp) s fun x => .next (if cond s.flags then s.setPc x else s.advance)

/-- JMP (R96). -/
def execJmp (t : Src) (sp : Bool) (s : State) : Res := branch condAlways t sp s

/-- JL (R97). -/
def execJl (t : Src) (sp : Bool) (s : State) : Res := branch condLess t sp s

/-- JG (R98). -/
def execJg (t : Src) (sp : Bool) (s : State) : Res := branch condGreater t sp s

/-- JLE (R99). -/
def execJle (t : Src) (sp : Bool) (s : State) : Res := branch condLessEqual t sp s

/-- JGE (R100). -/
def execJge (t : Src) (sp : Bool) (s : State) : Res := branch condGreaterEqual t sp s

/-- JE (R101). -/
def execJe (t : Src) (sp : Bool) (s : State) : Res := branch condEqual t sp s

/-- JNE (R102). -/
def execJne (t : Src) (sp : Bool) (s : State) : Res := branch condNotEqual t sp s

end Sys2Proof.Machine
end

