-- ==== Sys2Proof/Machine/Compare.lean ====
section
/-! DEFINITION. CMP: 42_compare.md. -/

namespace Sys2Proof.Machine

/-- CMP (R93). -/
def execCmp (a b : Src) (sp : Bool) (s : State) : Res :=
  orRaise (operandsSS s a b sp) s fun (x, y) => .next (s.setFlags (compareFlags x y)).advance

end Sys2Proof.Machine
end

