-- ==== Sys2Proof/Machine/HaltBlank.lean ====
section
/-! DEFINITION. HLT and the blank line: 45_halt_nop_unknown.md. (An unknown opcode is `rejected` of
Machine/Ops.lean.) -/

namespace Sys2Proof.Machine

/-- HLT (R111). -/
def execHlt (sp : Bool) (s : State) : Res :=
  orRaise (noSurplus sp) s fun _ => .next s.halt

/-- The blank line (R112). -/
def execBlankLine (s : State) : Res := .next s.advance

end Sys2Proof.Machine
end

