-- ==== Sys2Proof/Machine/InOut.lean ====
section
/-! DEFINITION. The three forms of INT: 44_io.md. -/

namespace Sys2Proof.Machine

/-- INT, print-value form (R106). -/
def execIntPrintValue (r : Ref) (sp : Bool) (s : State) : Res :=
  orRaise (operandS s (refSrc r) sp) s fun x => .next (s.emit (.value x)).advance

/-- INT, print-text form (R107): the tokens verbatim, joined by single spaces; it cannot fault. -/
def execIntPrintText (ts : List Token) (s : State) : Res :=
  .next (s.emit (.text (join [' '] ts))).advance

/-- INT, input form (R108 to R110): destination and surplus check, then the record. No step exists while
there is no record (R109); when the record is not valid it has been consumed and nothing is written
(R133). -/
def execIntInput (d : Dst) (sp : Bool) (s : State) : Res :=
  orRaise (operandD s d sp) s fun k =>
    match s.nextRecord with
    | none => .fault .waitingForInput
    | some record =>
      match inputValue s.params record with
      | some v => .next (s.consume.writeCell k v).advance
      | none => raise .invalidInput s.consume

end Sys2Proof.Machine
end

