-- ==== Sys2Proof/Machine/MoveArith.lean ====
section
/-! DEFINITION. MOV, ADD, SUB, MUL, DIV, MOD: 41_move_arith.md. -/

namespace Sys2Proof.Machine

/-- The common sequence of the three-operand instructions (R89), for an operation that always has a
result. -/
def arith (f : Int → Int → Int) (d : Dst) (a b : Src) (sp : Bool) (s : State) : Res :=
  orRaise (operandsDSS s d a b sp) s fun (k, x, y) => .next (s.writeCell k (f x y)).advance

/-- The same with the zero-divisor test of DIV and MOD, after every fatal check and before any write (R79,
R87, R128). -/
def divide (f : Int → Int → Int) (d : Dst) (a b : Src) (sp : Bool) (s : State) : Res :=
  orRaise (operandsDSS s d a b sp) s fun (k, x, y) =>
    if y = 0 then recover .divisionByZero s else .next (s.writeCell k (f x y)).advance

/-- MOV (R83). -/
def execMov (d : Dst) (a : Src) (sp : Bool) (s : State) : Res :=
  orRaise (operandsDS s d a sp) s fun (k, x) => .next (s.writeCell k x).advance

/-- ADD (R84). -/
def execAdd (d : Dst) (a b : Src) (sp : Bool) (s : State) : Res :=
  arith (fun x y => wrap s.params.xlen (x + y)) d a b sp s

/-- SUB (R85). -/
def execSub (d : Dst) (a b : Src) (sp : Bool) (s : State) : Res :=
  arith (fun x y => wrap s.params.xlen (x - y)) d a b sp s

/-- MUL (R86). -/
def execMul (d : Dst) (a b : Src) (sp : Bool) (s : State) : Res :=
  arith (fun x y => wrap s.params.xlen (x * y)) d a b sp s

/-- DIV (R87): the floor quotient, wrapped (which matters for `INT_MIN // -1` only, R90). -/
def execDiv (d : Dst) (a b : Src) (sp : Bool) (s : State) : Res :=
  divide (fun x y => wrap s.params.xlen (floorDiv x y)) d a b sp s

/-- MOD (R88): the remainder of floor division, which needs no wrap (R90). -/
def execMod (d : Dst) (a b : Src) (sp : Bool) (s : State) : Res :=
  divide (fun x y => floorMod x y) d a b sp s

end Sys2Proof.Machine
end

