-- ==== Sys2Proof/Machine/Dispatch.lean ====
section
/-! DEFINITION. Dispatch (46_engine_loop.md R118): one arm for each constructor of `Instr`. -/

namespace Sys2Proof.Machine

def exec (i : Instr) (s : State) : Host.Outcome State Fault Refusal :=
  match i with
  -- 41_move_arith.md
  | .mov d a sp => Sys2Proof.Machine.execMov d a sp s
  | .add d a b sp => Sys2Proof.Machine.execAdd d a b sp s
  | .sub d a b sp => Sys2Proof.Machine.execSub d a b sp s
  | .mul d a b sp => Sys2Proof.Machine.execMul d a b sp s
  | .div d a b sp => Sys2Proof.Machine.execDiv d a b sp s
  | .mod d a b sp => Sys2Proof.Machine.execMod d a b sp s
  -- 42_compare.md
  | .cmp a b sp => Sys2Proof.Machine.execCmp a b sp s
  -- 43_branch.md
  | .jmp t sp => Sys2Proof.Machine.execJmp t sp s
  | .jl t sp => Sys2Proof.Machine.execJl t sp s
  | .jg t sp => Sys2Proof.Machine.execJg t sp s
  | .jle t sp => Sys2Proof.Machine.execJle t sp s
  | .jge t sp => Sys2Proof.Machine.execJge t sp s
  | .je t sp => Sys2Proof.Machine.execJe t sp s
  | .jne t sp => Sys2Proof.Machine.execJne t sp s
  -- 44_io.md
  | .intPrintValue r sp => Sys2Proof.Machine.execIntPrintValue r sp s
  | .intPrintText ts => Sys2Proof.Machine.execIntPrintText ts s
  | .intInput d sp => Sys2Proof.Machine.execIntInput d sp s
  -- 45_halt_nop_unknown.md
  | .hlt sp => Sys2Proof.Machine.execHlt sp s
  | .blankLine => Sys2Proof.Machine.execBlankLine s

end Sys2Proof.Machine
end

