-- ==== Sys2Proof/Machine/Step.lean ====
section
/-! DEFINITION. The step: 46_engine_loop.md R114 to R120; and how one word is laid where the next step
fetches it. -/

namespace Sys2Proof.Machine

/-- One step (R120): where one exists, the line at `pc` is decoded and its rule runs; the rule itself
writes `pc` and the loop adds nothing (R119). -/
def step (s : State) : Host.Outcome State Fault Refusal :=
  match s.noStep with
  | some f => .fault f
  | none =>
    match decode s.line with
    | .ok i => exec i s
    | .error r => rejected r s

/-- `s` with the line of a table word as the line the very next step runs (log entries 25 and 26). The
fetch needs a running machine, so `RS` is set; nothing else changes. -/
def State.withFetchWord (s : State) (nbits w : Nat) : State :=
  { s.withLine (tableLine nbits w) with rs := .running }

end Sys2Proof.Machine
end

