-- ==== Sys2Proof/Machine/Run.lean ====
section
/-! DEFINITION. The run: 46_engine_loop.md R122, R123, 70_reset_and_hazards.md R157. The machine itself bounds
no run; `run` executes one under fuel, and running out of it is an outcome of the model's own. -/

namespace Sys2Proof.Machine

/-! ### The INPUT of a run -/

/-- `INPUT`, the finite or infinite sequence of records the host delivers in the course of a run (R14, R30): the
record at each index. A finite one has none from its length on; what stands behind the first index without a
record is never delivered. (`State.input` is the finite part delivered so far: log entry 28.) -/
abbrev Input := Nat → Option Line

/-- A finite `INPUT`. -/
def Input.ofList (records : List Line) : Input := fun n => records[n]?

/-- An infinite `INPUT`. -/
def Input.ofFunction (record : Nat → Line) : Input := fun n => some (record n)

/-- The host delivers the next record of `INPUT`, the one behind those delivered so far, if there is one. -/
def State.feed (s : State) (inp : Input) : State :=
  match inp s.input.length with
  | some record => s.deliver record
  | none => s

/-- One step of a run on `INPUT`: the host delivers ahead of the step. A step consumes at most one record, so it
waits only where `INPUT` has no record left (R109); when else a record is delivered makes no difference (log
entry 28). -/
def stepOn (inp : Input) (s : State) : Res := step (s.feed inp)

/-! ### The run -/

/-- The run from `s` on `INPUT` as a sequence: its state after `n` steps, `none` where the run has no `n` steps.
The run of a program is that from `State.construct` (R123, R147). -/
def State.nth (s : State) (inp : Input) : Nat → Option State
  | 0 => some s
  | n + 1 =>
    match stepOn inp s with
    | .next t => t.nth inp n
    | .fault _ => none
    | .refused _ => none

/-- The run never stops growing (R123, R157). -/
def State.RunsForever (s : State) (inp : Input) : Prop := ∀ n, ∃ t, s.nth inp n = some t

/-- The run is finite: it has `n` steps and ends in the terminal state `t` (R122, R123). -/
def State.EndsAt (s : State) (inp : Input) (n : Nat) (t : State) : Prop :=
  s.nth inp n = some t ∧ t.terminal = true

/-- The run stops growing after `n` steps in the state `t`, whose step waits for a record that never comes
(R123, R157). -/
def State.WaitsAt (s : State) (inp : Input) (n : Nat) (t : State) : Prop :=
  s.nth inp n = some t ∧ stepOn inp t = .fault .waitingForInput

/-- What executing a run under fuel finds, with the state it stopped in. -/
inductive RunResult where
  /-- The run has ended (R122). -/
  | ended (final : State)
  /-- The run waits for a record that never comes: neither an end nor a fault (R109, R157). -/
  | waiting (last : State)
  /-- The fuel is used up and a step exists: the model's own outcome, no end of the run (R123). -/
  | outOfFuel (last : State)
  /-- A step refused, which none does. -/
  | refused (last : State) (reason : Refusal)
deriving DecidableEq, Repr

/-- Executes the run from `s` on `INPUT` for at most `fuel` steps (R123; log entry 32). -/
def run (inp : Input) (fuel : Nat) (s : State) : RunResult :=
  match stepOn inp s with
  | .fault .runHalted => .ended s
  | .fault .runFaulted => .ended s
  | .fault .runCompleted => .ended s
  | .fault .waitingForInput => .waiting s
  | .refused r => .refused s r
  | .next t =>
    match fuel with
    | 0 => .outOfFuel s
    | n + 1 => run inp n t

/-- The termination signal reported to the caller: that of the final state, and none for a run that waits or
has more steps (R122, R123, R157). -/
def RunResult.signal : RunResult → Option Signal
  | .ended t => t.signal
  | .waiting _ => none
  | .outOfFuel _ => none
  | .refused _ _ => none

end Sys2Proof.Machine
end

