-- ==== Sys2Proof/WellFormed.lean ====
section
/-! DEFINITION. Well-formed instructions: the line has none of the defects R70 lists that the line alone
decides. What depends on `XLEN` or `MEMSIZE` is `Machine.instrFits` (Machine/Operands.lean). -/

namespace Sys2Proof

/-- A source operand without the defects R70 (a), (b), (d), and with an index R64 allows. -/
def Src.wf : Src → Bool
  | .imm _ => true
  | .cell i => decide (0 ≤ i)
  | .malformed => false

/-- The same for a bracketed source operand. -/
def Ref.wf : Ref → Bool
  | .cell i => decide (0 ≤ i)
  | .malformed => false

/-- A destination operand without the defects R70 (f) that the line alone decides. -/
def Dst.wf : Dst → Bool
  | .cell i => decide (0 ≤ i)
  | .invalid => false

/-- A string that can be a token: not empty, no whitespace in it (R54). -/
def tokenWf (t : Token) : Bool := decide (t ≠ []) && t.all fun c => !isSpace c

/-- The text tokens of a print-text line: tokens, the first of them not bracketed (R63, R67). -/
def textWf (ts : List Token) : Bool :=
  ts.all tokenWf && !((ts.head?.map fun t => isBracketed (strip t)).getD false)

/-- A well-formed instruction: every operand well-formed and no surplus token (R68, R70). -/
def Instr.wf : Instr → Bool
  | .mov d s sp => d.wf && s.wf && !sp
  | .add d a b sp => d.wf && a.wf && b.wf && !sp
  | .sub d a b sp => d.wf && a.wf && b.wf && !sp
  | .mul d a b sp => d.wf && a.wf && b.wf && !sp
  | .div d a b sp => d.wf && a.wf && b.wf && !sp
  | .mod d a b sp => d.wf && a.wf && b.wf && !sp
  | .cmp a b sp => a.wf && b.wf && !sp
  | .jmp t sp => t.wf && !sp
  | .jl t sp => t.wf && !sp
  | .jg t sp => t.wf && !sp
  | .jle t sp => t.wf && !sp
  | .jge t sp => t.wf && !sp
  | .je t sp => t.wf && !sp
  | .jne t sp => t.wf && !sp
  | .intPrintValue r sp => r.wf && !sp
  | .intPrintText ts => textWf ts
  | .intInput d sp => d.wf && !sp
  | .hlt sp => !sp
  | .blankLine => true

end Sys2Proof
end

