-- ==== Sys2Proof/Safety.lean ====
section
/-! DEFINITION. The terms statements are written in: admissible parameters, the invariant of the state,
the conditions an instruction's operands raise, the cell it stores to. -/

namespace Sys2Proof.Machine

/-- What the spec asks of the parameters: at least one bit (R9), at least one cell (R10), a program whose
length is a machine integer (R11), a sentinel that is a machine integer and no valid index (R12), one of
the three legal flag values (R13). The engine checks none of it (R151). -/
structure ParamsOk (p : Params) : Prop where
  xlen_pos : p.xlen ≠ .bits 0
  memSize_pos : 1 ≤ p.memSize
  progLen_range : inRange p.xlen (p.progLen : Int) = true
  icHalt_range : inRange p.xlen p.icHalt = true
  icHalt_noIndex : p.icHalt < 0 ∨ (p.progLen : Int) ≤ p.icHalt
  flagsReset_legal : (p.flagsReset.less && p.flagsReset.equal) = false

/-- The invariant of the state. -/
structure State.Inv (s : State) : Prop where
  /-- The parameters are admissible (R9 to R13). -/
  params_ok : ParamsOk s.params
  /-- Memory is in its canonical form (log entry 24). -/
  mem_wf : s.mem.wf = true
  /-- Only cells `0 .. MEMSIZE-1` exist (R18). -/
  mem_bound : ∀ c ∈ s.mem, c.1 < s.params.memSize
  /-- A cell holds a machine integer (R18). -/
  mem_range : ∀ c ∈ s.mem, inRange s.params.xlen c.2 = true
  /-- `pc` holds a machine integer (R20). -/
  pc_range : inRange s.params.xlen s.pc = true
  /-- `less` and `equal` are mutually exclusive (R23). -/
  flags_legal : (s.flags.less && s.flags.equal) = false
  /-- A halted machine holds the sentinel (R111). -/
  halted_pc : s.rs = .halted → s.pc = s.params.icHalt
  /-- There is a fault record exactly in state Faulted (R27). -/
  fault_iff : s.rs = .faulted ↔ s.fr.isSome = true
  /-- The fault record holds the line `pc` still stands at (R27, R137). -/
  fault_here : ∀ r, s.fr = some r → r.index = s.pc ∧ s.fetch = some r.text
  /-- `INPOS` counts delivered records (R30). -/
  inpos_le : s.inpos ≤ s.input.length
  /-- A printed value is a machine integer (R29). -/
  out_range : ∀ v, PrintRecord.value v ∈ s.out → inRange s.params.xlen v = true
  /-- A report holds a line of the program with its index (R140). -/
  rep_line : ∀ r ∈ s.rep, 0 ≤ r.index ∧ s.params.program[r.index.toNat]? = some r.text

/-- A step of the line `l` is due: the machine runs and `l` stands at `pc` (R114). -/
def State.due (s : State) (l : Line) : Prop := s.rs = .running ∧ s.fetch = some l

/-- A safe state: no fatal condition has ended the run. -/
def State.safe (s : State) : Bool := decide (s.rs ≠ .faulted)

/-- The state after entry of a fatal condition (R137). -/
def State.faultedBy (s : State) (c : Fatal) (l : Line) : State :=
  { s with fr := some ⟨c, s.pc, l⟩, rs := .faulted }

/-- `u` is reached from `s` by steps none of which is a CMP (R94). -/
inductive RunWithoutCmp : State → State → Prop where
  | refl (s : State) : RunWithoutCmp s s
  | step {s t u : State} {l : Line} (hdue : s.due l)
      (hcmp : ∀ a b sp, decode l ≠ .ok (.cmp a b sp)) (hstep : step s = .next t)
      (rest : RunWithoutCmp t u) : RunWithoutCmp s u

/-- The step of an input-form INT is due, its operand is good, and there is no record for it (R109). -/
def State.waits (s : State) : Prop :=
  ∃ l d k, s.due l ∧ decode l = .ok (.intInput d false) ∧ destCell s d = .ok k ∧ s.nextRecord = none

/-- The outcome with the program of its next state replaced. -/
def withProgram (prog : List Line) : Res → Res
  | .next t => .next { t with params := { t.params with program := prog } }
  | .fault f => .fault f
  | .refused r => .refused r

/-! ### The conditions of the operands, by position -/

/-- The condition a source operand raises (R70 a to e). -/
def srcCondition (p : Params) : Src → Option Fatal
  | .malformed => some .malformedOperand
  | .imm v => if inRange p.xlen v then none else some .malformedOperand
  | .cell i => if 0 ≤ i ∧ i < p.memSize then none else some .outOfBoundsAddress

/-- The condition a destination operand raises (R70 f). -/
def dstCondition (p : Params) : Dst → Option Fatal
  | .invalid => some .invalidDestination
  | .cell i => if 0 ≤ i ∧ i < p.memSize then none else some .invalidDestination

/-- The condition a bracketed source operand raises (R70 d, e). -/
def refCondition (p : Params) : Ref → Option Fatal
  | .malformed => some .malformedOperand
  | .cell i => if 0 ≤ i ∧ i < p.memSize then none else some .outOfBoundsAddress

/-- The condition surplus tokens raise (R70 g). -/
def surplusCondition (sp : Bool) : Option Fatal := if sp then some .malformedOperand else none

/-- The conditions of an instruction in the order in which they are looked for: its operand tokens left to
right, then the surplus tokens (R79, R135). -/
def operandConditions (p : Params) : Instr → List (Option Fatal)
  | .mov d a sp => [dstCondition p d, srcCondition p a, surplusCondition sp]
  | .add d a b sp | .sub d a b sp | .mul d a b sp | .div d a b sp | .mod d a b sp =>
    [dstCondition p d, srcCondition p a, srcCondition p b, surplusCondition sp]
  | .cmp a b sp => [srcCondition p a, srcCondition p b, surplusCondition sp]
  | .jmp t sp | .jl t sp | .jg t sp | .jle t sp | .jge t sp | .je t sp | .jne t sp =>
    [srcCondition p t, surplusCondition sp]
  | .intPrintValue r sp => [refCondition p r, surplusCondition sp]
  | .intPrintText _ => []
  | .intInput d sp => [dstCondition p d, surplusCondition sp]
  | .hlt sp => [surplusCondition sp]
  | .blankLine => []

/-- The leftmost condition of a list. -/
def leftmost : List (Option Fatal) → Option Fatal
  | [] => none
  | some c :: _ => some c
  | none :: rest => leftmost rest

/-- The cell an instruction stores to: its destination operand, read as its meaning reads it (R42, R78);
`none` for a form that stores nothing. -/
def storedCell (s : State) : Instr → Option Nat
  | .mov d _ _ | .add d _ _ _ | .sub d _ _ _ | .mul d _ _ _ | .div d _ _ _ | .mod d _ _ _ | .intInput d _ =>
    (destCell s d).toOption
  | .cmp _ _ _ | .jmp _ _ | .jl _ _ | .jg _ _ | .jle _ _ | .jge _ _ | .je _ _ | .jne _ _ => none
  | .intPrintValue _ _ | .intPrintText _ | .hlt _ | .blankLine => none

/-- The branch condition of an instruction as a function of the flags, for the seven branches (R96 to
R102), with its target. -/
def branchOf : Instr → Option (Src × (Flags → Bool))
  | .jmp t _ => some (t, condAlways)
  | .jl t _ => some (t, condLess)
  | .jg t _ => some (t, condGreater)
  | .jle t _ => some (t, condLessEqual)
  | .jge t _ => some (t, condGreaterEqual)
  | .je t _ => some (t, condEqual)
  | .jne t _ => some (t, condNotEqual)
  | .mov _ _ _ | .add _ _ _ _ | .sub _ _ _ _ | .mul _ _ _ _ | .div _ _ _ _ | .mod _ _ _ _ => none
  | .cmp _ _ _ | .intPrintValue _ _ | .intPrintText _ | .intInput _ _ | .hlt _ | .blankLine => none

end Sys2Proof.Machine
end

