-- ==== Sys2Proof/Certificates/Slice0/Obligations.lean ====
section
/-! DEFINITION. The statements for the provers. Each docstring names what of the spec it says. A next state
is written as `{ s with ... }`: every field of the state that is not named keeps its value, which is the
frame of the instruction. -/


open Sys2Proof Sys2Proof.Machine

/-! ### Text and decoding (30_encoding.md) -/

/-- R53. `Trim` takes off the longest prefix and the longest suffix of whitespace: what is taken off is all
whitespace, and what is left neither begins nor ends with whitespace. -/
def Obligations.TrimRemovesOuterWhitespace : Prop :=
  (∀ s : Line, ∃ pre suf : Line, s = pre ++ trim s ++ suf ∧
    (∀ c ∈ pre, isSpace c = true) ∧ (∀ c ∈ suf, isSpace c = true) ∧
    (∀ c, (trim s).head? = some c → isSpace c = false) ∧
    (∀ c, (trim s).getLast? = some c → isSpace c = false)) ∧
  (∀ s : Line, (∀ c ∈ s, isSpace c = true) → trim s = [])

/-- R54. `Tokens` lists, left to right, the maximal non-empty runs of non-whitespace. -/
def Obligations.TokensAreTheMaximalRuns : Prop :=
  tokens [] = [] ∧
  (∀ (c : Char) (s : Line), isSpace c = true → tokens (c :: s) = tokens s) ∧
  (∀ w rest : Line, w ≠ [] → (∀ c ∈ w, isSpace c = false) →
    (∀ c, rest.head? = some c → isSpace c = true) → tokens (w ++ rest) = w :: tokens rest) ∧
  (∀ s : Line, ∀ t ∈ tokens s, t ≠ [] ∧ ∀ c ∈ t, isSpace c = false) ∧
  (∀ s : Line, tokens (trim s) = tokens s) ∧
  tokens "MOV [0],5".toList = ["MOV".toList, "[0],5".toList]

/-- R52, section 1 of 30_encoding.md. The whitespace characters are the six the spec chose (its decision
D9): a clause the source leaves open. -/
def Obligations.WhitespaceIsSixCharacters : Prop :=
  ∀ c : Char, isSpace c = true ↔ c.toNat ∈ [0x09, 0x0A, 0x0B, 0x0C, 0x0D, 0x20]

/-- R56. The bracket test looks at the first and the last character only; the inner text is what stands
between them. -/
def Obligations.BracketTestLooksAtBothEnds : Prop :=
  (∀ u : Token, isBracketed u = true ↔ 2 ≤ u.length ∧ u[0]? = some '[' ∧ u[u.length - 1]? = some ']') ∧
  (∀ u v : Token, isBracketed u = true ∧ inner u = v ↔ u = '[' :: (v ++ [']'])) ∧
  isBracketed "[[0]]".toList = true ∧ inner "[[0]]".toList = "[0]".toList ∧
  parseInt (inner "[[0]]".toList) = none ∧
  isBracketed "[]".toList = true ∧ inner "[]".toList = [] ∧
  isBracketed "[".toList = false ∧ isBracketed "[0".toList = false ∧ isBracketed "0]".toList = false

/-- Section 2 of 30_encoding.md, the function `Strip` (the spec's decision D7). -/
def Obligations.StripTakesOneTrailingComma : Prop :=
  (∀ t : Token, strip (t ++ [',']) = t) ∧
  (∀ t : Token, t.getLast? ≠ some ',' → strip t = t) ∧
  strip "5,,".toList = "5,".toList ∧ strip ",".toList = []

/-- Section 2 of 30_encoding.md, the function `ParseInt` (grammar: the spec's decision D8): an optional
sign and one or more digits, and nothing else; the value is that of the digits in base 10, most significant
first. -/
def Obligations.ParseIntReadsSignedDecimals : Prop :=
  (∀ (s : List Char) (v : Int), parseInt s = some v ↔
    ∃ ds : List Char, ds ≠ [] ∧ (∀ c ∈ ds, isDigit c = true) ∧
      ((s = ds ∧ v = (digitsValue ds : Int)) ∨ (s = '+' :: ds ∧ v = (digitsValue ds : Int)) ∨
        (s = '-' :: ds ∧ v = -(digitsValue ds : Int)))) ∧
  (∀ c : Char, isDigit c = true ↔ c ∈ "0123456789".toList) ∧
  digitsValue [] = 0 ∧
  (∀ (ds : List Char) (c : Char), digitsValue (ds ++ [c]) = 10 * digitsValue ds + (c.toNat - '0'.toNat))

/-- Section 2 of 30_encoding.md, the functions `Upper` and `Join`. -/
def Obligations.UpperAndJoinWork : Prop :=
  (∀ k : Nat, k < 26 → upperChar (Char.ofNat (97 + k)) = Char.ofNat (65 + k)) ∧
  (∀ c : Char, c.toNat < 97 ∨ 122 < c.toNat → upperChar c = c) ∧
  (∀ s : Token, upper s = s.map upperChar) ∧
  (∀ sep : List Char, join sep [] = []) ∧
  (∀ sep t : List Char, join sep [t] = t) ∧
  (∀ (sep t u : List Char) (ts : List Token), join sep (t :: u :: ts) = t ++ sep ++ join sep (u :: ts))

/-- Section 5 of 30_encoding.md: an opcode is selected by equality of the whole token (the spec's decision
D22), there are sixteen, and their bytes are those of the table (leftmost character most significant). -/
def Obligations.MnemonicsAreMatchedExactly : Prop :=
  (∀ (t : Token) (o : Opcode), selectOpcode t = some o ↔ t = o.token) ∧
  Opcode.all.length = 16 ∧ (∀ o : Opcode, o ∈ Opcode.all) ∧
  Opcode.all.map (fun o => tokenNumber o.token) =
    [0x4D4F56, 0x414444, 0x535542, 0x4D554C, 0x444956, 0x4D4F44, 0x434D50, 0x4A4D50, 0x4A4C, 0x4A47,
      0x4A4C45, 0x4A4745, 0x4A45, 0x4A4E45, 0x494E54, 0x484C54]

/-- Sections 3 and 6 of 30_encoding.md: the fields of the fifteen opcodes other than INT are whole tokens by
position, a missing token reads as one that does not parse, and tokens beyond the format's last operand are
marked as surplus (the spec's decision D12). -/
def Obligations.FieldsAreTokensByPosition : Prop :=
  ∀ (l : Line) (ts : List Token),
    (tokens l = "MOV".toList :: ts →
      decode l = .ok (.mov (decodeDst ts[0]?) (decodeSrc ts[1]?) (decide (2 < ts.length)))) ∧
    (tokens l = "ADD".toList :: ts → decode l =
      .ok (.add (decodeDst ts[0]?) (decodeSrc ts[1]?) (decodeSrc ts[2]?) (decide (3 < ts.length)))) ∧
    (tokens l = "SUB".toList :: ts → decode l =
      .ok (.sub (decodeDst ts[0]?) (decodeSrc ts[1]?) (decodeSrc ts[2]?) (decide (3 < ts.length)))) ∧
    (tokens l = "MUL".toList :: ts → decode l =
      .ok (.mul (decodeDst ts[0]?) (decodeSrc ts[1]?) (decodeSrc ts[2]?) (decide (3 < ts.length)))) ∧
    (tokens l = "DIV".toList :: ts → decode l =
      .ok (.div (decodeDst ts[0]?) (decodeSrc ts[1]?) (decodeSrc ts[2]?) (decide (3 < ts.length)))) ∧
    (tokens l = "MOD".toList :: ts → decode l =
      .ok (.mod (decodeDst ts[0]?) (decodeSrc ts[1]?) (decodeSrc ts[2]?) (decide (3 < ts.length)))) ∧
    (tokens l = "CMP".toList :: ts →
      decode l = .ok (.cmp (decodeSrc ts[0]?) (decodeSrc ts[1]?) (decide (2 < ts.length)))) ∧
    (tokens l = "JMP".toList :: ts → decode l = .ok (.jmp (decodeSrc ts[0]?) (decide (1 < ts.length)))) ∧
    (tokens l = "JL".toList :: ts → decode l = .ok (.jl (decodeSrc ts[0]?) (decide (1 < ts.length)))) ∧
    (tokens l = "JG".toList :: ts → decode l = .ok (.jg (decodeSrc ts[0]?) (decide (1 < ts.length)))) ∧
    (tokens l = "JLE".toList :: ts → decode l = .ok (.jle (decodeSrc ts[0]?) (decide (1 < ts.length)))) ∧
    (tokens l = "JGE".toList :: ts → decode l = .ok (.jge (decodeSrc ts[0]?) (decide (1 < ts.length)))) ∧
    (tokens l = "JE".toList :: ts → decode l = .ok (.je (decodeSrc ts[0]?) (decide (1 < ts.length)))) ∧
    (tokens l = "JNE".toList :: ts → decode l = .ok (.jne (decodeSrc ts[0]?) (decide (1 < ts.length)))) ∧
    (tokens l = "HLT".toList :: ts → decode l = .ok (.hlt (decide (0 < ts.length))))

/-- Section 5 of 30_encoding.md: the form of an INT line (position of the keyword: the spec's decision
D15). -/
def Obligations.IntFormIsChosenByKeyword : Prop :=
  ∀ l : Line,
    (tokens l = ["INT".toList] → decode l = .ok (.intInput .invalid false)) ∧
    (∀ k, tokens l = ["INT".toList, k] → upper k = "PRINT".toList → decode l = .ok (.intPrintText [])) ∧
    (∀ k t more, tokens l = "INT".toList :: k :: t :: more → upper k = "PRINT".toList →
      isBracketed (strip t) = true → decode l = .ok (.intPrintValue (decodeRef t) (decide (more ≠ [])))) ∧
    (∀ k t more, tokens l = "INT".toList :: k :: t :: more → upper k = "PRINT".toList →
      isBracketed (strip t) = false → decode l = .ok (.intPrintText (t :: more))) ∧
    (∀ k rest, tokens l = "INT".toList :: k :: rest → upper k ≠ "PRINT".toList →
      decode l = .ok (.intInput (decodeDst rest[0]?) (decide (1 < rest.length))))

/-- R69, R129. A line is an unknown instruction exactly when it is not blank and its first token is none of
the sixteen mnemonics; its step appends one report and advances `pc`, and nothing else happens, whatever
tokens follow; the condition's number. -/
def Obligations.UnknownLineIsReportedAndSkipped : Prop :=
  (∀ l : Line, (∃ r, decode l = .error r) ↔
    ∃ t ts, tokens (trim l) = t :: ts ∧ ∀ o : Opcode, t ≠ o.token) ∧
  (∀ (s : State) (l : Line) (r : DecodeReject), s.due l → decode l = .error r →
    step s = .next { s with
      events := s.events ++ [.report ⟨.unknownInstruction, s.pc, l⟩]
      pc := s.pc + 1 }) ∧
  Recoverable.unknownInstruction.code = 2

/-- R61, R116. A line is blank exactly when nothing is left after `Trim`; its step advances `pc` by one and
changes nothing else. -/
def Obligations.BlankLineOnlyAdvances : Prop :=
  (∀ l : Line, decode l = .ok .blankLine ↔ trim l = []) ∧
  (∀ s : State, exec .blankLine s = .next { s with pc := s.pc + 1 }) ∧
  (∀ (s : State) (l : Line), s.due l → trim l = [] → step s = .next { s with pc := s.pc + 1 })

/-- Section 7 of 30_encoding.md: spelling differences in whitespace do not matter; lines with the same
tokens are the same instruction. -/
def Obligations.DecodeDependsOnTokensOnly : Prop :=
  ∀ l l' : Line, tokens l = tokens l' → decode l = decode l'

/-- Decode and encode agree, on every well-formed instruction with every operand at every value: no part of
an encoding is dropped. -/
def Obligations.DecodeUndoesEncode : Prop :=
  ∀ i : Instr, i.wf = true → decode (encode i) = .ok i

/-- The same for every instruction some line decodes to, ill-formed ones included: the encoder's line has
the same defects (log entry 27 names the encoder's spelling of a defect, the model's choice). -/
def Obligations.EncodeOfDecodedLineDecodesTheSame : Prop :=
  ∀ (l : Line) (i : Instr), decode l = .ok i → decode (encode i) = .ok i

/-- Lines of 95_test_vectors.md, written out as the bytes of its tables, decode to the instructions they
stand for. -/
def Obligations.SampleLinesDecode : Prop :=
  decode ([0x4D, 0x4F, 0x56, 0x20, 0x5B, 0x30, 0x5D, 0x2C, 0x20, 0x35].map Char.ofNat) =
    .ok (.mov (.cell 0) (.imm 5) false) ∧
  decode ([0x44, 0x49, 0x56, 0x20, 0x5B, 0x30, 0x5D, 0x2C, 0x20, 0x2D, 0x37, 0x2C, 0x20, 0x32].map Char.ofNat) =
    .ok (.div (.cell 0) (.imm (-7)) (.imm 2) false) ∧
  decode ([0x43, 0x4D, 0x50, 0x20, 0x5B, 0x32, 0x5D, 0x2C, 0x20, 0x38].map Char.ofNat) =
    .ok (.cmp (.cell 2) (.imm 8) false) ∧
  decode ([0x4A, 0x47, 0x45, 0x20, 0x36].map Char.ofNat) = .ok (.jge (.imm 6) false) ∧
  decode ([0x49, 0x4E, 0x54, 0x20, 0x50, 0x52, 0x49, 0x4E, 0x54, 0x20, 0x5B, 0x31, 0x5D].map Char.ofNat) =
    .ok (.intPrintValue (.cell 1) false) ∧
  decode ([0x48, 0x4C, 0x54].map Char.ofNat) = .ok (.hlt false) ∧
  decode [] = .ok .blankLine

/-- How a table word is laid for the next step (log entries 25 and 26, the model's conventions): the very
next step runs exactly the line of that word, in a state that differs from `s` in nothing but the program,
`RS`, and `pc` where `pc` named no line. -/
def Obligations.FetchWordIsWhatRunsNext : Prop :=
  ∀ (s : State) (nbits w : Nat),
    (s.withFetchWord nbits w).due (tableLine nbits w) ∧
    (∀ i, decodeTableWord nbits w = some i →
      step (s.withFetchWord nbits w) = exec i (s.withFetchWord nbits w)) ∧
    (∃ prog pc, s.withFetchWord nbits w =
        { s with params := { s.params with program := prog }, pc := pc, rs := .running } ∧
      (s.fetch ≠ none → pc = s.pc ∧ prog = s.params.program.set s.pc.toNat (tableLine nbits w)) ∧
      (s.fetch = none → pc = s.params.progLen ∧ prog = s.params.program ++ [tableLine nbits w]))

/-! ### Operands (40_operands.md) -/

/-- The function `Resolve` of section 1 of 40_operands.md, in full, for every token and for an absent one
(range test of an immediate: the spec's decision D8; absent token: D12). -/
def Obligations.ResolveReadsSourceTokens : Prop :=
  ∀ s : State,
    resolveToken s none = .error .malformedOperand ∧
    ∀ t : Token,
      (isBracketed (strip t) = true →
        (parseInt (inner (strip t)) = none → resolveToken s (some t) = .error .malformedOperand) ∧
        ∀ i, parseInt (inner (strip t)) = some i →
          (i < 0 ∨ (s.params.memSize : Int) ≤ i → resolveToken s (some t) = .error .outOfBoundsAddress) ∧
          (0 ≤ i → i < (s.params.memSize : Int) → resolveToken s (some t) = .ok (s.mem.read i.toNat))) ∧
      (isBracketed (strip t) = false →
        (parseInt (strip t) = none → resolveToken s (some t) = .error .malformedOperand) ∧
        ∀ v, parseInt (strip t) = some v →
          (inRange s.params.xlen v = false → resolveToken s (some t) = .error .malformedOperand) ∧
          (inRange s.params.xlen v = true → resolveToken s (some t) = .ok v))

/-- R77. The function `Dest`, in full: every defect gives InvalidDestination, a good token the index, and
Memory is never read. The tokens named are the rule's corner cases. -/
def Obligations.DestReadsDestinationTokens : Prop :=
  ∀ s : State,
    destToken s none = .error .invalidDestination ∧
    (∀ t : Token,
      (isBracketed (strip t) = false → destToken s (some t) = .error .invalidDestination) ∧
      (isBracketed (strip t) = true →
        (parseInt (inner (strip t)) = none → destToken s (some t) = .error .invalidDestination) ∧
        ∀ i, parseInt (inner (strip t)) = some i →
          (i < 0 ∨ (s.params.memSize : Int) ≤ i → destToken s (some t) = .error .invalidDestination) ∧
          (0 ≤ i → i < (s.params.memSize : Int) → destToken s (some t) = .ok i.toNat))) ∧
    (∀ (m : Memory) (t : Option Token), destToken { s with mem := m } t = destToken s t) ∧
    (∀ t ∈ ["5".toList, "[x]".toList, "[]".toList, "[-1]".toList],
      destToken s (some t) = .error .invalidDestination) ∧
    (1 ≤ s.params.memSize → destToken s (some "[0],".toList) = .ok 0) ∧
    (3 ≤ s.params.memSize → destToken s (some "[2],".toList) = .ok 2) ∧
    (s.params.memSize = 10 → destToken s (some "[1000]".toList) = .error .invalidDestination)

/-- Section 1 of 40_operands.md: the index of a bracketed token is compared with 0 and `MEMSIZE` as a
mathematical integer; `[2^64]` does not alias cell 0. -/
def Obligations.IndexIsNeverReduced : Prop :=
  (∀ s : State, s.params.memSize ≤ 2 ^ 64 →
    resolveToken s (some "[18446744073709551616]".toList) = .error .outOfBoundsAddress) ∧
  (∀ (s : State) (i : Int), resolve s (.cell i) =
    if 0 ≤ i ∧ i < (s.params.memSize : Int) then .ok (s.mem.read i.toNat) else .error .outOfBoundsAddress)

/-- R81. Every read of an instruction sees Memory as it was before the instruction's write: the result is
computed from the old contents also where the destination cell is a source. -/
def Obligations.OperandsAreReadBeforeTheWrite : Prop :=
  (∀ (s : State) (i : Int) (k : Nat) (x : Int), s.mem.wf = true → destCell s (.cell i) = .ok k →
    s.mem.read k = x →
    exec (.sub (.cell i) (.cell i) (.imm 1) false) s =
      (if inRange s.params.xlen 1 then
        .next { s with mem := s.mem.write k (wrap s.params.xlen (x - 1)), pc := s.pc + 1 }
      else .next (s.faultedBy .malformedOperand s.line)) ∧
    exec (.add (.cell i) (.cell i) (.cell i) false) s =
      .next { s with mem := s.mem.write k (wrap s.params.xlen (x + x)), pc := s.pc + 1 } ∧
    exec (.mov (.cell i) (.cell i) false) s = .next { s with pc := s.pc + 1 }) ∧
  (∀ s : State, s.params.xlen = .bits 64 → 1 ≤ s.params.memSize → s.mem.wf = true → s.mem.read 0 = 4 →
    ∃ t, exec (.sub (.cell 0) (.cell 0) (.imm 1) false) s = .next t ∧ t.mem.read 0 = 3)

/-- Section 3 of 40_operands.md and section 3 of 60_exceptions.md (the spec's decision D11): the operand
tokens are checked left to right, then the surplus tokens; the leftmost condition is the one the instruction
raises, before any effect. With no such condition the instruction has its effect: it faults no more, but for
the input form on a record that is not valid, and waits only in the input form. -/
def Obligations.LeftmostConditionIsRaised : Prop :=
  ∀ (i : Instr) (s : State),
    (∀ c, leftmost (operandConditions s.params i) = some c →
      exec i s = .next (s.faultedBy c s.line)) ∧
    (leftmost (operandConditions s.params i) = none → (∀ d sp, i ≠ .intInput d sp) →
      ∃ t, exec i s = .next t ∧ t.fr = s.fr ∧ (t.rs = s.rs ∨ i = .hlt false ∧ t.rs = .halted))

/-- Section 6 of 30_encoding.md, the list of ways a line with a known opcode can be ill-formed, both ways:
the step of such a line ends in state Faulted exactly when the instruction is not well-formed or does not
fit the parameters, or is an input form on a record that is not valid. (The machine runs, so a well-formed
instruction that fits has its effect: no refusal and no fault of ordinary data.) What counts as a defect rests
on the spec's decisions D8 (literals and their range, log entry 8), D12 (missing and surplus tokens, log entry
12) and, for the input form, D17 (its checks and the grammar of a record, log entry 17). -/
def Obligations.StepFaultsExactlyOnDefects : Prop :=
  ∀ (s : State) (l : Line) (i : Instr), s.due l → decode l = .ok i →
    ((∃ t, step s = .next t ∧ t.rs = .faulted) ↔
      (i.wf && instrFits s.params i) = false ∨
      ∃ d r, i = .intInput d false ∧ s.nextRecord = some r ∧ inputValue s.params r = none)

/-! ### Machine integers and Memory -/

/-- Section 5 of 00_scope.md: `wrap(v)` is the one machine integer congruent to `v` modulo `2^XLEN` (the
policy is the spec's decision D2); with `XLEN = ∞` it is `v`. -/
def Obligations.WrapIsTheMachineInteger : Prop :=
  (∀ (n : Nat) (v : Int), 1 ≤ n →
    inRange (.bits n) (wrap (.bits n) v) = true ∧
    (∃ q : Int, wrap (.bits n) v = v + q * 2 ^ n) ∧
    (∀ u : Int, inRange (.bits n) u = true → (∃ q : Int, u = v + q * 2 ^ n) → u = wrap (.bits n) v)) ∧
  (∀ v : Int, wrap .unbounded v = v ∧ inRange .unbounded v = true) ∧
  (∀ (n : Nat) (v : Int), inRange (.bits n) v = true ↔ -(2 : Int) ^ (n - 1) ≤ v ∧ v ≤ 2 ^ (n - 1) - 1)

/-- Section 5.1 of 00_scope.md: floor quotient and floored remainder belong together, the remainder has the
sign of the divisor (the spec's decision D3); MOD needs no wrap, and DIV only for `INT_MIN // -1`. -/
def Obligations.FloorQuotientAndRemainder : Prop :=
  (∀ a b : Int, b ≠ 0 →
    a = b * floorDiv a b + floorMod a b ∧
    (0 < b → floorDiv a b * b ≤ a ∧ a < (floorDiv a b + 1) * b) ∧
    (b < 0 → a ≤ floorDiv a b * b ∧ (floorDiv a b + 1) * b < a) ∧
    (0 < b → 0 ≤ floorMod a b ∧ floorMod a b < b) ∧
    (b < 0 → b < floorMod a b ∧ floorMod a b ≤ 0)) ∧
  (∀ (w : Width) (a b : Int), b ≠ 0 → inRange w a = true → inRange w b = true →
    inRange w (floorMod a b) = true ∧
    (inRange w (floorDiv a b) = true ∨ ∃ n, w = .bits n ∧ a = intMin n ∧ b = -1))

/-- Section 3 of 20_memory.md: in a canonical memory a read gives the value of the most recent write to that
cell, a write changes no other cell, and every write keeps the canonical form (the canonical form is the
model's, log entry 24). -/
def Obligations.ReadGivesMostRecentWrite : Prop :=
  ∀ (m : Memory) (i : Nat) (v : Int), m.wf = true →
    (m.write i v).wf = true ∧ (m.write i v).read i = v ∧ ∀ j, j ≠ i → (m.write i v).read j = m.read j

/-- The model's canonical form (log entry 24): memories with the same contents are the same data. -/
def Obligations.EqualContentsAreEqualMemories : Prop :=
  ∀ m n : Memory, m.wf = true → n.wf = true → (∀ i, m.read i = n.read i) → m = n

/-! ### Data movement and arithmetic (41_move_arith.md) -/

/-- R83. MOV copies the value of its source to the destination cell; its conditions, left to right; its
encoding; the value is stored unchanged and no other cell changes; the rule's example. -/
def Obligations.MovCopiesAValue : Prop :=
  (∀ (s : State) (d : Dst) (a : Src) (k : Nat) (x : Int), destCell s d = .ok k → resolve s a = .ok x →
    exec (.mov d a false) s = .next { s with mem := s.mem.write k x, pc := s.pc + 1 } ∧
    exec (.mov d a true) s = .next (s.faultedBy .malformedOperand s.line) ∧
    (s.mem.wf = true → (s.mem.write k x).read k = x) ∧
    (∀ j, j ≠ k → (s.mem.write k x).read j = s.mem.read j)) ∧
  (∀ (s : State) (d : Dst) (a : Src) (sp : Bool) (c : Fatal), destCell s d = .error c →
    c = .invalidDestination ∧ exec (.mov d a sp) s = .next (s.faultedBy c s.line)) ∧
  (∀ (s : State) (d : Dst) (a : Src) (sp : Bool) (k : Nat) (c : Fatal), destCell s d = .ok k →
    resolve s a = .error c →
    (c = .malformedOperand ∨ c = .outOfBoundsAddress) ∧
    exec (.mov d a sp) s = .next (s.faultedBy c s.line)) ∧
  (∀ (s : State) (i : Int) (k : Nat), s.mem.wf = true → destCell s (.cell i) = .ok k →
    exec (.mov (.cell i) (.cell i) false) s = .next { s with pc := s.pc + 1 }) ∧
  (∀ ts : List Token, decodeTokens ("MOV".toList :: ts) =
    .ok (.mov (decodeDst ts[0]?) (decodeSrc ts[1]?) (decide (2 < ts.length)))) ∧
  (∀ (p : Params) (input : List Line), 1 ≤ p.memSize → inRange p.xlen 5 = true →
    ∃ t, exec (.mov (.cell 0) (.imm 5) false) (State.construct p input) = .next t ∧
      t.mem.read 0 = 5 ∧ t.pc = 1)

/-- Sections 1 and 3 of 41_move_arith.md: ADD, SUB and MUL store the wrapped sum, difference (first source
minus second) and product (wrap: the spec's decision D2), with nothing else changed; the four ways they
fault, left to right. -/
def Obligations.AddSubMulStoreTheWrappedResult : Prop :=
  ∀ (s : State) (d : Dst) (a b : Src),
    (∀ k x y, destCell s d = .ok k → resolve s a = .ok x → resolve s b = .ok y →
      exec (.add d a b false) s =
        .next { s with mem := s.mem.write k (wrap s.params.xlen (x + y)), pc := s.pc + 1 } ∧
      exec (.sub d a b false) s =
        .next { s with mem := s.mem.write k (wrap s.params.xlen (x - y)), pc := s.pc + 1 } ∧
      exec (.mul d a b false) s =
        .next { s with mem := s.mem.write k (wrap s.params.xlen (x * y)), pc := s.pc + 1 }) ∧
    (∀ sp c, leftmost [dstCondition s.params d, srcCondition s.params a, srcCondition s.params b,
        surplusCondition sp] = some c →
      exec (.add d a b sp) s = .next (s.faultedBy c s.line) ∧
      exec (.sub d a b sp) s = .next (s.faultedBy c s.line) ∧
      exec (.mul d a b sp) s = .next (s.faultedBy c s.line))

/-- Section 4 of 41_move_arith.md: DIV and MOD with a divisor other than 0 store the wrapped floor quotient
and the floored remainder (the spec's decisions D2 and D3), with nothing else changed; the four ways they
fault, left to right, whatever the divisor. -/
def Obligations.DivModStoreFloorResults : Prop :=
  ∀ (s : State) (d : Dst) (a b : Src),
    (∀ k x y, destCell s d = .ok k → resolve s a = .ok x → resolve s b = .ok y → y ≠ 0 →
      exec (.div d a b false) s =
        .next { s with mem := s.mem.write k (wrap s.params.xlen (Int.fdiv x y)), pc := s.pc + 1 } ∧
      exec (.mod d a b false) s =
        .next { s with mem := s.mem.write k (Int.fmod x y), pc := s.pc + 1 }) ∧
    (∀ sp c, leftmost [dstCondition s.params d, srcCondition s.params a, srcCondition s.params b,
        surplusCondition sp] = some c →
      exec (.div d a b sp) s = .next (s.faultedBy c s.line) ∧
      exec (.mod d a b sp) s = .next (s.faultedBy c s.line))

/-- R128. DivisionByZero: what it does, that DIV and MOD raise it exactly when every operand is good, no
token is surplus and the second source resolves to 0, that no other instruction ever does, and its
number. -/
def Obligations.DivisionByZeroIsReportedAndSkipped : Prop :=
  (∀ (s : State) (d : Dst) (a b : Src) (k : Nat) (x : Int), destCell s d = .ok k → resolve s a = .ok x →
    resolve s b = .ok 0 →
    exec (.div d a b false) s = .next { s with
      events := s.events ++ [.report ⟨.divisionByZero, s.pc, s.line⟩], pc := s.pc + 1 } ∧
    exec (.mod d a b false) s = .next { s with
      events := s.events ++ [.report ⟨.divisionByZero, s.pc, s.line⟩], pc := s.pc + 1 }) ∧
  (∀ (s : State) (l : Line), s.due l → s.line = l) ∧
  (∀ (i : Instr) (s t : State), exec i s = .next t →
    (t.rep ≠ s.rep ↔ ∃ d a b k x, (i = .div d a b false ∨ i = .mod d a b false) ∧
      destCell s d = .ok k ∧ resolve s a = .ok x ∧ resolve s b = .ok 0)) ∧
  Recoverable.divisionByZero.code = 1

/-- The corner cases and the table of sections 3 to 5 of 41_move_arith.md at `XLEN = 64`, run through the
instructions: `(a, b, r)` stores `r`. -/
def Obligations.ArithmeticCornerCases : Prop :=
  ∀ (s : State) (i : Int), s.params.xlen = .bits 64 → 0 ≤ i → i < (s.params.memSize : Int) →
    (∀ e ∈ [((9223372036854775807 : Int), (1 : Int), (-9223372036854775808 : Int)),
        (-9223372036854775808, -1, 9223372036854775807), (5, 3, 8), (7, 0, 7)],
      exec (.add (.cell i) (.imm e.1) (.imm e.2.1) false) s =
        .next { s with mem := s.mem.write i.toNat e.2.2, pc := s.pc + 1 }) ∧
    (∀ e ∈ [((-9223372036854775808 : Int), (1 : Int), (9223372036854775807 : Int)),
        (0, -9223372036854775808, -9223372036854775808), (10, 3, 7), (3, 10, -7)],
      exec (.sub (.cell i) (.imm e.1) (.imm e.2.1) false) s =
        .next { s with mem := s.mem.write i.toNat e.2.2, pc := s.pc + 1 }) ∧
    (∀ e ∈ [((9223372036854775807 : Int), (2 : Int), (-2 : Int)),
        (-9223372036854775808, -1, -9223372036854775808), (9223372036854775807, 9223372036854775807, 1),
        (4294967296, 4294967296, 0), (3037000500, 3037000500, -9223372036709301616), (-3, 4, -12),
        (-3, -4, 12), (6, 7, 42)],
      exec (.mul (.cell i) (.imm e.1) (.imm e.2.1) false) s =
        .next { s with mem := s.mem.write i.toNat e.2.2, pc := s.pc + 1 }) ∧
    (∀ e ∈ [((7 : Int), (2 : Int), (3 : Int), (1 : Int)), (-7, 2, -4, 1), (7, -2, -4, -1), (-7, -2, 3, -1),
        (6, 3, 2, 0), (-6, 3, -2, 0), (5, 7, 0, 5), (-5, 7, -1, 2), (5, -7, -1, -2), (1, 2, 0, 1),
        (-1, 2, -1, 1), (1, -2, -1, -1), (-1, -2, 0, -1), (0, 5, 0, 0), (0, -5, 0, 0),
        (-9223372036854775808, -1, -9223372036854775808, 0),
        (-9223372036854775808, 1, -9223372036854775808, 0), (9223372036854775807, -1, -9223372036854775807, 0),
        (-9223372036854775808, 9223372036854775807, -2, 9223372036854775806),
        (9223372036854775807, -9223372036854775808, -1, -1)],
      exec (.div (.cell i) (.imm e.1) (.imm e.2.1) false) s =
        .next { s with mem := s.mem.write i.toNat e.2.2.1, pc := s.pc + 1 } ∧
      exec (.mod (.cell i) (.imm e.1) (.imm e.2.1) false) s =
        .next { s with mem := s.mem.write i.toNat e.2.2.2, pc := s.pc + 1 })

/-! ### Comparison (42_compare.md) -/

/-- R93. CMP sets both stored flags by the signed order of its operands and advances `pc`, and changes
nothing else; its conditions, left operand first; its encoding; the rule's examples. -/
def Obligations.CmpSetsBothFlags : Prop :=
  (∀ (s : State) (a b : Src) (x y : Int), resolve s a = .ok x → resolve s b = .ok y →
    (x < y → exec (.cmp a b false) s = .next { s with flags := ⟨true, false⟩, pc := s.pc + 1 }) ∧
    (y < x → exec (.cmp a b false) s = .next { s with flags := ⟨false, false⟩, pc := s.pc + 1 }) ∧
    (x = y → exec (.cmp a b false) s = .next { s with flags := ⟨false, true⟩, pc := s.pc + 1 }) ∧
    exec (.cmp a b true) s = .next (s.faultedBy .malformedOperand s.line)) ∧
  (greater ⟨true, false⟩ = false ∧ greater ⟨false, false⟩ = true ∧ greater ⟨false, true⟩ = false) ∧
  (∀ (s : State) (a b : Src) (sp : Bool) (c : Fatal), resolve s a = .error c →
    exec (.cmp a b sp) s = .next (s.faultedBy c s.line)) ∧
  (∀ (s : State) (a b : Src) (sp : Bool) (x : Int) (c : Fatal), resolve s a = .ok x →
    resolve s b = .error c → exec (.cmp a b sp) s = .next (s.faultedBy c s.line)) ∧
  (∀ ts : List Token, decodeTokens ("CMP".toList :: ts) =
    .ok (.cmp (decodeSrc ts[0]?) (decodeSrc ts[1]?) (decide (2 < ts.length)))) ∧
  (∀ s : State, s.params.xlen = .bits 64 →
    exec (.cmp (.imm (-9223372036854775808)) (.imm 9223372036854775807) false) s =
      .next { s with flags := ⟨true, false⟩, pc := s.pc + 1 } ∧
    exec (.cmp (.imm 3) (.imm 5) false) s = .next { s with flags := ⟨true, false⟩, pc := s.pc + 1 } ∧
    exec (.cmp (.imm 5) (.imm 3) false) s = .next { s with flags := ⟨false, false⟩, pc := s.pc + 1 } ∧
    (3 ≤ s.params.memSize → s.mem.read 2 = 8 → exec (.cmp (.cell 2) (.imm 8) false) s =
      .next { s with flags := ⟨false, true⟩, pc := s.pc + 1 }))

/-- R94. After a CMP that completes exactly one of less, equal, greater is true, and a conditional branch
decides by the order of the two compared values, however many other instructions run in between, as long as
none of them is a CMP. -/
def Obligations.BranchDecidesByLastCmp : Prop :=
  ∀ (s t u : State) (a b target : Src) (x y z : Int),
    resolve s a = .ok x → resolve s b = .ok y → exec (.cmp a b false) s = .next t →
    ((t.flags.less = true ↔ x < y) ∧ (t.flags.equal = true ↔ x = y) ∧ (greater t.flags = true ↔ y < x)) ∧
    (RunWithoutCmp t u → resolve u target = .ok z →
      exec (.je target false) u = .next { u with pc := if x = y then z else u.pc + 1 } ∧
      exec (.jne target false) u = .next { u with pc := if x ≠ y then z else u.pc + 1 } ∧
      exec (.jl target false) u = .next { u with pc := if x < y then z else u.pc + 1 } ∧
      exec (.jg target false) u = .next { u with pc := if y < x then z else u.pc + 1 } ∧
      exec (.jle target false) u = .next { u with pc := if x ≤ y then z else u.pc + 1 } ∧
      exec (.jge target false) u = .next { u with pc := if y ≤ x then z else u.pc + 1 })

/-! ### Control transfer (43_branch.md) -/

/-- Sections 1 and 2 of 43_branch.md: the seven branches load the resolved target, or advance, by their
condition on the flags, and change nothing else. -/
def Obligations.BranchesLoadTargetOrAdvance : Prop :=
  ∀ (s : State) (t : Src) (z : Int), resolve s t = .ok z →
    exec (.jmp t false) s = .next { s with pc := z } ∧
    exec (.jl t false) s = .next { s with pc := if s.flags.less then z else s.pc + 1 } ∧
    exec (.jg t false) s =
      .next { s with pc := if !(s.flags.less || s.flags.equal) then z else s.pc + 1 } ∧
    exec (.jle t false) s = .next { s with pc := if s.flags.less || s.flags.equal then z else s.pc + 1 } ∧
    exec (.jge t false) s = .next { s with
      pc := if !(s.flags.less || s.flags.equal) || s.flags.equal then z else s.pc + 1 } ∧
    exec (.je t false) s = .next { s with pc := if s.flags.equal then z else s.pc + 1 } ∧
    exec (.jne t false) s = .next { s with pc := if !s.flags.equal then z else s.pc + 1 }

/-- Section 3 of 43_branch.md (the spec's decision D14): a target outside the program is loaded like any
other, without a fault, and the run has then ended with the signal Completed. -/
def Obligations.JumpOutOfTheProgramCompletes : Prop :=
  ∀ (s : State) (l : Line) (t : Src) (z : Int), s.due l → decode l = .ok (.jmp t false) →
    resolve s t = .ok z → (z < 0 ∨ (s.params.progLen : Int) ≤ z) →
    ∃ u, step s = .next u ∧ u = { s with pc := z } ∧ u.rs = .running ∧ u.signal = some .completed ∧
      step u = .fault .runCompleted

/-! ### Input and output (44_io.md) -/

/-- R106. The print-value form emits the value of the cell and advances; its conditions come before anything
is emitted; its encoding, and that an unbracketed operand is the print-text form; the rule's example. -/
def Obligations.PrintValueEmitsTheCell : Prop :=
  (∀ (s : State) (i : Int), 0 ≤ i → i < (s.params.memSize : Int) →
    exec (.intPrintValue (.cell i) false) s = .next { s with
      events := s.events ++ [.print (.value (s.mem.read i.toNat))], pc := s.pc + 1 } ∧
    exec (.intPrintValue (.cell i) true) s = .next (s.faultedBy .malformedOperand s.line)) ∧
  (∀ (s : State) (i : Int) (sp : Bool), i < 0 ∨ (s.params.memSize : Int) ≤ i →
    exec (.intPrintValue (.cell i) sp) s = .next (s.faultedBy .outOfBoundsAddress s.line)) ∧
  (∀ (s : State) (sp : Bool),
    exec (.intPrintValue .malformed sp) s = .next (s.faultedBy .malformedOperand s.line)) ∧
  (∀ (k t : Token) (more : List Token), upper k = "PRINT".toList → isBracketed (strip t) = true →
    decodeTokens ("INT".toList :: k :: t :: more) = .ok (.intPrintValue (decodeRef t) (decide (more ≠ [])))) ∧
  decode "INT PRINT [x]".toList = .ok (.intPrintValue .malformed false) ∧
  decode "INT PRINT []".toList = .ok (.intPrintValue .malformed false) ∧
  decode "INT PRINT 5".toList = .ok (.intPrintText ["5".toList]) ∧
  (∀ s : State, 3 ≤ s.params.memSize → s.mem.read 2 = 8 →
    ∃ t, exec (.intPrintValue (.cell 2) false) s = .next t ∧ t.out = s.out ++ [.value 8])

/-- Section 44_io.md, print-text form: the tokens verbatim, joined by single spaces, as one record; it has no
condition. -/
def Obligations.PrintTextEmitsTheTokens : Prop :=
  (∀ (s : State) (ts : List Token), exec (.intPrintText ts) s = .next { s with
    events := s.events ++ [.print (.text (join [' '] ts))], pc := s.pc + 1 }) ∧
  (∀ s : State, ∃ t, exec (.intPrintText []) s = .next t ∧ t.out = s.out ++ [.text []]) ∧
  (∀ (s : State), s.due "INT PRINT   hello,   world".toList →
    ∃ t, step s = .next t ∧ t.out = s.out ++ [.text "hello, world".toList])

/-- Section 44_io.md, input form (order of checks and grammar: the spec's decision D17): with a good
destination and a record that is a machine integer, the integer is stored and the record consumed. -/
def Obligations.InputStoresTheRecord : Prop :=
  (∀ (s : State) (d : Dst) (k : Nat) (r : Line) (v : Int), destCell s d = .ok k →
    s.nextRecord = some r → parseInt (trim r) = some v → inRange s.params.xlen v = true →
    exec (.intInput d false) s = .next { s with
      mem := s.mem.write k v, inpos := s.inpos + 1, pc := s.pc + 1 }) ∧
  (∀ (s : State) (d : Dst) (sp : Bool) (c : Fatal),
    leftmost [dstCondition s.params d, surplusCondition sp] = some c →
    exec (.intInput d sp) s = .next (s.faultedBy c s.line))

/-- Sections 44_io.md and 60_exceptions.md, InvalidInput: a record that is not a machine integer is
consumed and nothing is written; the run ends in state Faulted. -/
def Obligations.InvalidInputIsConsumed : Prop :=
  ∀ (s : State) (d : Dst) (k : Nat) (r : Line), destCell s d = .ok k → s.nextRecord = some r →
    (parseInt (trim r) = none ∨ ∃ v, parseInt (trim r) = some v ∧ inRange s.params.xlen v = false) →
    exec (.intInput d false) s = .next { s with
      inpos := s.inpos + 1, fr := some ⟨.invalidInput, s.pc, s.line⟩, rs := .faulted }

/-- Section 44_io.md, the wait (the spec's decision D18; the outcome's name is the model's, log entry 18):
with a good destination and no record no step exists, and the same state with a record delivered goes on. -/
def Obligations.InputWaitsForARecord : Prop :=
  (∀ (s : State) (d : Dst) (k : Nat), destCell s d = .ok k → s.nextRecord = none →
    exec (.intInput d false) s = .fault .waitingForInput) ∧
  (∀ s : State, step s = .fault .waitingForInput ↔ s.waits) ∧
  (∀ (s : State) (r : Line), s.waits → s.inpos = s.input.length →
    ∃ t, step (s.deliver r) = .next t ∧ t.inpos = s.inpos + 1)

/-! ### Halt (45_halt_nop_unknown.md) -/

/-- Section 45_halt_nop_unknown.md: HLT writes the sentinel and the run state and nothing else (the value of
the sentinel is a parameter, the spec's decision D6); `HLT now` faults and does not halt (D12). -/
def Obligations.HltHalts : Prop :=
  ∀ s : State,
    exec (.hlt false) s = .next { s with pc := s.params.icHalt, rs := .halted } ∧
    exec (.hlt true) s = .next (s.faultedBy .malformedOperand s.line)

/-! ### The step and the run (46_engine_loop.md) -/

/-- Section 3 of 46_engine_loop.md: the step of a line is the rule of the instruction it decodes to, and the
loop adds nothing around it. -/
def Obligations.StepRunsTheDecodedLine : Prop :=
  ∀ (s : State) (l : Line) (i : Instr), s.rs = .running → 0 ≤ s.pc →
    s.params.program[s.pc.toNat]? = some l → decode l = .ok i → step s = exec i s

/-- R114. A step exists exactly when the machine runs and `0 ≤ pc < PROGLEN`, but for an input-form INT that
waits for its record; in every state not of that kind the run has ended, which is not the wait. -/
def Obligations.StepExistsExactlyWhen : Prop :=
  ∀ s : State,
    ((∃ t, step s = .next t) ↔
      s.rs = .running ∧ 0 ≤ s.pc ∧ s.pc < (s.params.progLen : Int) ∧ ¬ s.waits) ∧
    (¬ (s.rs = .running ∧ 0 ≤ s.pc ∧ s.pc < (s.params.progLen : Int)) →
      ∃ f, step s = .fault f ∧ f ≠ .waitingForInput)

/-- The model's names for the absence of a step (log entry 21): `step` never refuses, and what it answers
where no step exists is the end of the run or the wait. -/
def Obligations.NoStepIsNamed : Prop :=
  ∀ s : State,
    (∀ r, step s ≠ .refused r) ∧
    (step s = .fault .runHalted ↔ s.rs = .halted) ∧
    (step s = .fault .runFaulted ↔ s.rs = .faulted) ∧
    (step s = .fault .runCompleted ↔ s.rs = .running ∧ (s.pc < 0 ∨ (s.params.progLen : Int) ≤ s.pc))

/-- R125. From a state with the run state Halted or Faulted there is no step, ever, and none from a terminal
state with the signal Completed; an input record changes nothing of that. -/
def Obligations.EndedRunHasNoStep : Prop :=
  ∀ s : State, s.rs = .halted ∨ s.rs = .faulted ∨ s.signal = some .completed →
    (∀ t, step s ≠ .next t) ∧ ∀ (r : Line) (t : State), step (s.deliver r) ≠ .next t

/-- Section 4 of 46_engine_loop.md: the termination signal is a function of the state (Completed for every
`pc` outside the program: the spec's decision D14). -/
def Obligations.SignalOfTheFinalState : Prop :=
  ∀ s : State, s.Inv →
    (s.signal = some .halted ↔ s.rs = .halted) ∧
    (∀ c, s.signal = some (.faulted c) ↔ s.rs = .faulted ∧ ∃ r, s.fr = some r ∧ r.reason = c) ∧
    (s.signal = some .completed ↔ s.rs = .running ∧ (s.pc < 0 ∨ (s.params.progLen : Int) ≤ s.pc)) ∧
    (s.signal = none ↔ s.rs = .running ∧ 0 ≤ s.pc ∧ s.pc < (s.params.progLen : Int))

/-- Section 3 of 10_state.md: what a step writes to `pc`, for every line. -/
def Obligations.PcIsWrittenOnceAsListed : Prop :=
  ∀ (s t : State) (l : Line), s.due l → step s = .next t →
    (t.rs = .faulted ∧ t.pc = s.pc) ∨
    (decode l = .ok (.hlt false) ∧ t.pc = s.params.icHalt) ∨
    (∃ i target cond z, decode l = .ok i ∧ branchOf i = some (target, cond) ∧ resolve s target = .ok z ∧
      t.pc = if cond s.flags then z else s.pc + 1) ∨
    ((∀ i, decode l = .ok i → branchOf i = none ∧ i ≠ .hlt false) ∧ t.pc = s.pc + 1)

/-- R24. Only CMP writes the flags, both stored bits of them; not even a CMP that faults does, nor an unknown
line. Only the branches read them: any other instruction does the same whatever they hold. -/
def Obligations.OnlyCmpWritesAndBranchesReadFlags : Prop :=
  (∀ (i : Instr) (s t : State), exec i s = .next t → t.flags = s.flags ∨
    ∃ a b x y, i = .cmp a b false ∧ resolve s a = .ok x ∧ resolve s b = .ok y ∧
      t.flags = compareFlags x y) ∧
  (∀ (i : Instr) (s t : State) (f : Flags), branchOf i = none → (∀ a b, i ≠ .cmp a b false) →
    exec i s = .next t → exec i (s.setFlags f) = .next (t.setFlags f)) ∧
  (∀ (s t : State) (a b : Src) (x y : Int) (f : Flags), resolve s a = .ok x → resolve s b = .ok y →
    exec (.cmp a b false) s = .next t → exec (.cmp a b false) (s.setFlags f) = .next t) ∧
  (∀ (s : State) (l : Line) (r : DecodeReject), s.due l → decode l = .error r →
    ∃ t, step s = .next t ∧ t.flags = s.flags)

/-- Section 5 of 10_state.md: the run state changes only from Running, to Halted only by HLT and to Faulted
only by a fatal condition. -/
def Obligations.RunStateChangesOnlyByHltOrFault : Prop :=
  ∀ s t : State, step s = .next t →
    s.rs = .running ∧
    (t.rs = .halted ↔ decode s.line = .ok (.hlt false)) ∧
    (t.rs = .faulted → ∃ c, t.fr = some ⟨c, s.pc, s.line⟩) ∧
    (t.rs ≠ .faulted → t.fr = s.fr)

/-- Section 4 of 20_memory.md and section 4 of 00_scope.md: no step changes a parameter (the program and the
number of cells among them), nor what the host has delivered, and no instruction refuses. -/
def Obligations.ParametersAndInputNeverChange : Prop :=
  (∀ s t : State, step s = .next t → t.params = s.params ∧ t.input = s.input) ∧
  (∀ (i : Instr) (s : State) (r : Refusal), exec i s ≠ .refused r)

/-- Section 6 of 10_state.md: the channels only grow, by at most one record a step; the print forms of INT
write the print channel and nothing else does, `INPOS` moves only by the input form. -/
def Obligations.ChannelsOnlyGrow : Prop :=
  ∀ s t : State, step s = .next t →
    (t.events = s.events ∨ ∃ e, t.events = s.events ++ [e]) ∧
    (t.out ≠ s.out → ∃ i, decode s.line = .ok i ∧ ((∃ r, i = .intPrintValue r false) ∨ ∃ ts, i = .intPrintText ts)) ∧
    (t.rep ≠ s.rep → ∃ c, t.rep = s.rep ++ [⟨c, s.pc, s.line⟩]) ∧
    (t.inpos = s.inpos ∨ t.inpos = s.inpos + 1 ∧ ∃ d, decode s.line = .ok (.intInput d false))

/-- Section 2 of 20_memory.md: an instruction changes no cell but the one its destination operand names, and
none where it stores nothing; a line that decodes to no instruction changes none. -/
def Obligations.OnlyTheDestinationCellChanges : Prop :=
  (∀ (i : Instr) (s t : State), exec i s = .next t →
    ∀ j, storedCell s i ≠ some j → t.mem.read j = s.mem.read j) ∧
  (∀ (i : Instr) (s t : State), exec i s = .next t → (t.rs = .faulted ∨ t.rep ≠ s.rep) → s.rs = .running →
    t.mem = s.mem) ∧
  (∀ (s t : State) (r : DecodeReject), step s = .next t → decode s.line = .error r → t.mem = s.mem)

/-- Section 4 of 60_exceptions.md, entry of a fatal condition (content of the record and the place of `pc`:
the spec's decision D23): a step that ends in state Faulted has changed nothing but the run state, the fault
record, and, for InvalidInput alone, `INPOS`. -/
def Obligations.FatalEntryIsPrecise : Prop :=
  ∀ (s t : State) (l : Line), s.due l → step s = .next t → t.rs = .faulted →
    ∃ c, (c ≠ .invalidInput ∧ t = { s with fr := some ⟨c, s.pc, l⟩, rs := .faulted }) ∨
      (c = .invalidInput ∧ t = { s with fr := some ⟨c, s.pc, l⟩, rs := .faulted, inpos := s.inpos + 1 })

/-- Section 4 of 46_engine_loop.md: a line is decoded when it is executed. A step does not depend on any line
but the one at `pc`: a bad line that is not reached raises nothing. -/
def Obligations.OnlyTheFetchedLineMatters : Prop :=
  ∀ (s : State) (l : Line) (prog : List Line), s.due l → prog[s.pc.toNat]? = some l →
    step { s with params := { s.params with program := prog } } = withProgram prog (step s)

/-- Sections 44_io.md and 46_engine_loop.md: a record the host delivers before it is read changes nothing of
a step that exists without it, nor of the states of a run that exist without it: a longer `INPUT` prolongs a
run and alters no part of it, and a run on `INPUT` is the same when the next record is delivered earlier (log
entry 28). -/
def Obligations.LaterRecordsAreNotRead : Prop :=
  (∀ (s t : State) (r : Line), step s = .next t → step (s.deliver r) = .next (t.deliver r)) ∧
  (∀ (s t : State) (r : Line) (n : Nat), s.nth (Input.ofList []) n = some t →
    (s.deliver r).nth (Input.ofList []) n = some (t.deliver r)) ∧
  (∀ (inp : Input) (s t : State) (n : Nat), s.nth inp n = some t → (s.feed inp).nth inp n = some (t.feed inp))

/-- Section 4 of 46_engine_loop.md, the run, on every finite or infinite `INPUT` (log entry 28 names how it is
delivered, the model's choice). A run is the sequence of states obtained by repeating the step while one exists.
It goes on for ever, or is finite and ends in a terminal state, or stops growing in a state that waits for a
record: exactly one of the three, in exactly one place, and the record a run waits for is one that `INPUT` does
not have. No number of steps is its limit: executed under fuel, a run is found ended or waiting exactly where it
is so after at most as many steps as there is fuel, also with no fuel left, and is else out of fuel, which is no
termination signal. (The count of fuel and the names of the outcomes are the model's choice: log entry 32.) -/
def Obligations.RunEndsWaitsOrGoesOn : Prop :=
  ∀ inp : Input,
    (∀ s : State, s.nth inp 0 = some s ∧
      (∀ n t, s.nth inp n = some t → ∀ u, s.nth inp (n + 1) = some u ↔ step (t.feed inp) = .next u) ∧
      (∀ n, s.nth inp n = none → s.nth inp (n + 1) = none)) ∧
    (∀ s : State, (¬ s.RunsForever inp ↔ ∃ n t, s.EndsAt inp n t ∨ s.WaitsAt inp n t)) ∧
    (∀ (s t u : State) (m n : Nat), s.EndsAt inp m t ∨ s.WaitsAt inp m t → s.EndsAt inp n u ∨ s.WaitsAt inp n u →
      m = n ∧ t = u ∧ ¬ (s.EndsAt inp m t ∧ s.WaitsAt inp m t)) ∧
    (∀ (s t : State) (n : Nat), s.inpos ≤ s.input.length → s.WaitsAt inp n t →
      t.waits ∧ t.inpos = t.input.length ∧ inp t.inpos = none) ∧
    (∀ (s t : State) (fuel : Nat),
      (run inp fuel s = .ended t ↔ ∃ n ≤ fuel, s.EndsAt inp n t) ∧
      (run inp fuel s = .waiting t ↔ ∃ n ≤ fuel, s.WaitsAt inp n t) ∧
      (run inp fuel s = .outOfFuel t ↔ s.nth inp fuel = some t ∧ ∃ u, step (t.feed inp) = .next u) ∧
      (∀ r, run inp fuel s ≠ .refused t r)) ∧
    (∀ s : State, s.RunsForever inp ↔ ∀ fuel, ∃ t, run inp fuel s = .outOfFuel t ∧ t.signal = none ∧
      (run inp fuel s).signal = none)

/-! ### Reset and the invariant -/

/-- Sections 8 of 10_state.md and 1 of 70_reset_and_hazards.md: the state at construction, for all parameters
and every input. The default parameters are the spec's decisions D1, D5, D6 and, for the number of cells and
the empty program, the model's choice (log entry 4). -/
def Obligations.ResetValues : Prop :=
  (∀ (p : Params) (input : List Line),
    let s := State.construct p input
    (∀ j, s.mem.read j = 0) ∧ s.pc = 0 ∧ s.rs = .running ∧ s.flags = p.flagsReset ∧ s.fr = none ∧
    s.inpos = 0 ∧ s.out = [] ∧ s.rep = [] ∧ s.params = p ∧ s.input = input) ∧
  State.reset = State.construct Params.default [] ∧
  Params.default.xlen = .bits 64 ∧ Params.default.icHalt = -1 ∧
  Params.default.flagsReset = ⟨false, false⟩ ∧ greater Params.default.flagsReset = true

/-- The invariant holds at construction with admissible parameters, at reset, and when the host delivers a
record. -/
def Obligations.InvHoldsAtConstruction : Prop :=
  (∀ (p : Params) (input : List Line), ParamsOk p → (State.construct p input).Inv) ∧
  State.reset.Inv ∧
  (∀ (s : State) (r : Line), s.Inv → (s.deliver r).Inv)

/-- Every step keeps the invariant: cells and `pc` stay machine integers, Memory canonical and inside
`MEMSIZE`, less and equal exclusive, the fault record at the faulting line, reports true to the program. -/
def Obligations.StepKeepsInv : Prop :=
  ∀ s t : State, s.Inv → step s = .next t → t.Inv
end

