-- ==== Sys2Proof/Laws/State.lean ====
section
/-! SUPPORT. One lemma per field of `State` per update, so that no proof unfolds a record update. -/

namespace Sys2Proof.Machine.State

variable (s : State)

/-! ### `setPc` -/

@[simp] theorem setPc_params (v : Int) : (s.setPc v).params = s.params := rfl
@[simp] theorem setPc_mem (v : Int) : (s.setPc v).mem = s.mem := rfl
@[simp] theorem setPc_pc (v : Int) : (s.setPc v).pc = v := rfl
@[simp] theorem setPc_flags (v : Int) : (s.setPc v).flags = s.flags := rfl
@[simp] theorem setPc_rs (v : Int) : (s.setPc v).rs = s.rs := rfl
@[simp] theorem setPc_fr (v : Int) : (s.setPc v).fr = s.fr := rfl
@[simp] theorem setPc_input (v : Int) : (s.setPc v).input = s.input := rfl
@[simp] theorem setPc_inpos (v : Int) : (s.setPc v).inpos = s.inpos := rfl
@[simp] theorem setPc_events (v : Int) : (s.setPc v).events = s.events := rfl
@[simp] theorem setPc_out (v : Int) : (s.setPc v).out = s.out := rfl
@[simp] theorem setPc_rep (v : Int) : (s.setPc v).rep = s.rep := rfl

/-! ### `advance` -/

@[simp] theorem advance_params : (s.advance).params = s.params := rfl
@[simp] theorem advance_mem : (s.advance).mem = s.mem := rfl
@[simp] theorem advance_pc : (s.advance).pc = s.pc + 1 := rfl
@[simp] theorem advance_flags : (s.advance).flags = s.flags := rfl
@[simp] theorem advance_rs : (s.advance).rs = s.rs := rfl
@[simp] theorem advance_fr : (s.advance).fr = s.fr := rfl
@[simp] theorem advance_input : (s.advance).input = s.input := rfl
@[simp] theorem advance_inpos : (s.advance).inpos = s.inpos := rfl
@[simp] theorem advance_events : (s.advance).events = s.events := rfl
@[simp] theorem advance_out : (s.advance).out = s.out := rfl
@[simp] theorem advance_rep : (s.advance).rep = s.rep := rfl

/-! ### `writeCell` -/

@[simp] theorem writeCell_params (i : Nat) (v : Int) : (s.writeCell i v).params = s.params := rfl
@[simp] theorem writeCell_mem (i : Nat) (v : Int) : (s.writeCell i v).mem = s.mem.write i v := rfl
@[simp] theorem writeCell_pc (i : Nat) (v : Int) : (s.writeCell i v).pc = s.pc := rfl
@[simp] theorem writeCell_flags (i : Nat) (v : Int) : (s.writeCell i v).flags = s.flags := rfl
@[simp] theorem writeCell_rs (i : Nat) (v : Int) : (s.writeCell i v).rs = s.rs := rfl
@[simp] theorem writeCell_fr (i : Nat) (v : Int) : (s.writeCell i v).fr = s.fr := rfl
@[simp] theorem writeCell_input (i : Nat) (v : Int) : (s.writeCell i v).input = s.input := rfl
@[simp] theorem writeCell_inpos (i : Nat) (v : Int) : (s.writeCell i v).inpos = s.inpos := rfl
@[simp] theorem writeCell_events (i : Nat) (v : Int) : (s.writeCell i v).events = s.events := rfl
@[simp] theorem writeCell_fetch (i : Nat) (v : Int) : (s.writeCell i v).fetch = s.fetch := rfl
@[simp] theorem writeCell_line (i : Nat) (v : Int) : (s.writeCell i v).line = s.line := rfl
@[simp] theorem writeCell_out (i : Nat) (v : Int) : (s.writeCell i v).out = s.out := rfl
@[simp] theorem writeCell_rep (i : Nat) (v : Int) : (s.writeCell i v).rep = s.rep := rfl

/-! ### `setFlags` -/

@[simp] theorem setFlags_params (f : Flags) : (s.setFlags f).params = s.params := rfl
@[simp] theorem setFlags_mem (f : Flags) : (s.setFlags f).mem = s.mem := rfl
@[simp] theorem setFlags_pc (f : Flags) : (s.setFlags f).pc = s.pc := rfl
@[simp] theorem setFlags_flags (f : Flags) : (s.setFlags f).flags = f := rfl
@[simp] theorem setFlags_rs (f : Flags) : (s.setFlags f).rs = s.rs := rfl
@[simp] theorem setFlags_fr (f : Flags) : (s.setFlags f).fr = s.fr := rfl
@[simp] theorem setFlags_input (f : Flags) : (s.setFlags f).input = s.input := rfl
@[simp] theorem setFlags_inpos (f : Flags) : (s.setFlags f).inpos = s.inpos := rfl
@[simp] theorem setFlags_events (f : Flags) : (s.setFlags f).events = s.events := rfl
@[simp] theorem setFlags_fetch (f : Flags) : (s.setFlags f).fetch = s.fetch := rfl
@[simp] theorem setFlags_line (f : Flags) : (s.setFlags f).line = s.line := rfl
@[simp] theorem setFlags_out (f : Flags) : (s.setFlags f).out = s.out := rfl
@[simp] theorem setFlags_rep (f : Flags) : (s.setFlags f).rep = s.rep := rfl

/-! ### `halt` -/

@[simp] theorem halt_params : (s.halt).params = s.params := rfl
@[simp] theorem halt_mem : (s.halt).mem = s.mem := rfl
@[simp] theorem halt_pc : (s.halt).pc = s.params.icHalt := rfl
@[simp] theorem halt_flags : (s.halt).flags = s.flags := rfl
@[simp] theorem halt_rs : (s.halt).rs = .halted := rfl
@[simp] theorem halt_fr : (s.halt).fr = s.fr := rfl
@[simp] theorem halt_input : (s.halt).input = s.input := rfl
@[simp] theorem halt_inpos : (s.halt).inpos = s.inpos := rfl
@[simp] theorem halt_events : (s.halt).events = s.events := rfl
@[simp] theorem halt_out : (s.halt).out = s.out := rfl
@[simp] theorem halt_rep : (s.halt).rep = s.rep := rfl

/-! ### `emit` -/

@[simp] theorem emit_params (r : PrintRecord) : (s.emit r).params = s.params := rfl
@[simp] theorem emit_mem (r : PrintRecord) : (s.emit r).mem = s.mem := rfl
@[simp] theorem emit_pc (r : PrintRecord) : (s.emit r).pc = s.pc := rfl
@[simp] theorem emit_flags (r : PrintRecord) : (s.emit r).flags = s.flags := rfl
@[simp] theorem emit_rs (r : PrintRecord) : (s.emit r).rs = s.rs := rfl
@[simp] theorem emit_fr (r : PrintRecord) : (s.emit r).fr = s.fr := rfl
@[simp] theorem emit_input (r : PrintRecord) : (s.emit r).input = s.input := rfl
@[simp] theorem emit_inpos (r : PrintRecord) : (s.emit r).inpos = s.inpos := rfl
@[simp] theorem emit_events (r : PrintRecord) : (s.emit r).events = s.events ++ [.print r] := rfl
@[simp] theorem emit_fetch (r : PrintRecord) : (s.emit r).fetch = s.fetch := rfl
@[simp] theorem emit_line (r : PrintRecord) : (s.emit r).line = s.line := rfl

/-! ### `report` -/

@[simp] theorem report_params (c : Recoverable) : (s.report c).params = s.params := rfl
@[simp] theorem report_mem (c : Recoverable) : (s.report c).mem = s.mem := rfl
@[simp] theorem report_pc (c : Recoverable) : (s.report c).pc = s.pc := rfl
@[simp] theorem report_flags (c : Recoverable) : (s.report c).flags = s.flags := rfl
@[simp] theorem report_rs (c : Recoverable) : (s.report c).rs = s.rs := rfl
@[simp] theorem report_fr (c : Recoverable) : (s.report c).fr = s.fr := rfl
@[simp] theorem report_input (c : Recoverable) : (s.report c).input = s.input := rfl
@[simp] theorem report_inpos (c : Recoverable) : (s.report c).inpos = s.inpos := rfl
@[simp] theorem report_events (c : Recoverable) : (s.report c).events = s.events ++ [.report ⟨c, s.pc, s.line⟩] := rfl
@[simp] theorem report_fetch (c : Recoverable) : (s.report c).fetch = s.fetch := rfl
@[simp] theorem report_line (c : Recoverable) : (s.report c).line = s.line := rfl

/-! ### `consume` -/

@[simp] theorem consume_params : (s.consume).params = s.params := rfl
@[simp] theorem consume_mem : (s.consume).mem = s.mem := rfl
@[simp] theorem consume_pc : (s.consume).pc = s.pc := rfl
@[simp] theorem consume_flags : (s.consume).flags = s.flags := rfl
@[simp] theorem consume_rs : (s.consume).rs = s.rs := rfl
@[simp] theorem consume_fr : (s.consume).fr = s.fr := rfl
@[simp] theorem consume_input : (s.consume).input = s.input := rfl
@[simp] theorem consume_inpos : (s.consume).inpos = s.inpos + 1 := rfl
@[simp] theorem consume_events : (s.consume).events = s.events := rfl
@[simp] theorem consume_fetch : (s.consume).fetch = s.fetch := rfl
@[simp] theorem consume_line : (s.consume).line = s.line := rfl
@[simp] theorem consume_out : (s.consume).out = s.out := rfl
@[simp] theorem consume_rep : (s.consume).rep = s.rep := rfl

/-! ### `deliver` -/

@[simp] theorem deliver_params (l : Line) : (s.deliver l).params = s.params := rfl
@[simp] theorem deliver_mem (l : Line) : (s.deliver l).mem = s.mem := rfl
@[simp] theorem deliver_pc (l : Line) : (s.deliver l).pc = s.pc := rfl
@[simp] theorem deliver_flags (l : Line) : (s.deliver l).flags = s.flags := rfl
@[simp] theorem deliver_rs (l : Line) : (s.deliver l).rs = s.rs := rfl
@[simp] theorem deliver_fr (l : Line) : (s.deliver l).fr = s.fr := rfl
@[simp] theorem deliver_input (l : Line) : (s.deliver l).input = s.input ++ [l] := rfl
@[simp] theorem deliver_inpos (l : Line) : (s.deliver l).inpos = s.inpos := rfl
@[simp] theorem deliver_events (l : Line) : (s.deliver l).events = s.events := rfl
@[simp] theorem deliver_fetch (l : Line) : (s.deliver l).fetch = s.fetch := rfl
@[simp] theorem deliver_line (l : Line) : (s.deliver l).line = s.line := rfl
@[simp] theorem deliver_out (l : Line) : (s.deliver l).out = s.out := rfl
@[simp] theorem deliver_rep (l : Line) : (s.deliver l).rep = s.rep := rfl

/-! ### `faultedBy` -/

@[simp] theorem faultedBy_params (c : Fatal) (l : Line) : (s.faultedBy c l).params = s.params := rfl
@[simp] theorem faultedBy_mem (c : Fatal) (l : Line) : (s.faultedBy c l).mem = s.mem := rfl
@[simp] theorem faultedBy_pc (c : Fatal) (l : Line) : (s.faultedBy c l).pc = s.pc := rfl
@[simp] theorem faultedBy_flags (c : Fatal) (l : Line) : (s.faultedBy c l).flags = s.flags := rfl
@[simp] theorem faultedBy_rs (c : Fatal) (l : Line) : (s.faultedBy c l).rs = .faulted := rfl
@[simp] theorem faultedBy_fr (c : Fatal) (l : Line) : (s.faultedBy c l).fr = some ⟨c, s.pc, l⟩ := rfl
@[simp] theorem faultedBy_input (c : Fatal) (l : Line) : (s.faultedBy c l).input = s.input := rfl
@[simp] theorem faultedBy_inpos (c : Fatal) (l : Line) : (s.faultedBy c l).inpos = s.inpos := rfl
@[simp] theorem faultedBy_events (c : Fatal) (l : Line) : (s.faultedBy c l).events = s.events := rfl
@[simp] theorem faultedBy_fetch (c : Fatal) (l : Line) : (s.faultedBy c l).fetch = s.fetch := rfl
@[simp] theorem faultedBy_line (c : Fatal) (l : Line) : (s.faultedBy c l).line = s.line := rfl
@[simp] theorem faultedBy_out (c : Fatal) (l : Line) : (s.faultedBy c l).out = s.out := rfl
@[simp] theorem faultedBy_rep (c : Fatal) (l : Line) : (s.faultedBy c l).rep = s.rep := rfl

/-! ### The two traces -/

@[simp] theorem emit_out (r : PrintRecord) : (s.emit r).out = s.out ++ [r] := by
  simp [State.out, List.filterMap_append]

@[simp] theorem emit_rep (r : PrintRecord) : (s.emit r).rep = s.rep := by
  simp [State.rep, List.filterMap_append]

@[simp] theorem report_out (c : Recoverable) : (s.report c).out = s.out := by
  simp [State.out, List.filterMap_append]

@[simp] theorem report_rep (c : Recoverable) : (s.report c).rep = s.rep ++ [⟨c, s.pc, s.line⟩] := by
  simp [State.rep, List.filterMap_append]

/-! ### Construction -/

variable (p : Params) (input : List Line)

@[simp] theorem construct_params : (construct p input).params = p := rfl
@[simp] theorem construct_mem : (construct p input).mem = [] := rfl
@[simp] theorem construct_pc : (construct p input).pc = 0 := rfl
@[simp] theorem construct_flags : (construct p input).flags = p.flagsReset := rfl
@[simp] theorem construct_rs : (construct p input).rs = .running := rfl
@[simp] theorem construct_fr : (construct p input).fr = none := rfl
@[simp] theorem construct_input : (construct p input).input = input := rfl
@[simp] theorem construct_inpos : (construct p input).inpos = 0 := rfl
@[simp] theorem construct_events : (construct p input).events = [] := rfl
@[simp] theorem construct_out : (construct p input).out = [] := rfl
@[simp] theorem construct_rep : (construct p input).rep = [] := rfl

/-! ### Fetch -/

theorem fetch_eq_some {l : Line} :
    s.fetch = some l ↔ 0 ≤ s.pc ∧ s.params.program[s.pc.toNat]? = some l := by
  unfold State.fetch; split <;> simp_all

theorem fetch_eq_none : s.fetch = none ↔ s.pc < 0 ∨ (s.params.progLen : Int) ≤ s.pc := by
  unfold State.fetch Params.progLen
  by_cases h : 0 ≤ s.pc
  · simp only [h, if_true, List.getElem?_eq_none_iff]; omega
  · simp only [h, if_false, true_iff]; omega

theorem line_of_fetch {s : State} {l : Line} (h : s.fetch = some l) : s.line = l := by
  simp [State.line, h]

theorem due_line {s : State} {l : Line} (h : s.due l) : s.line = l := line_of_fetch h.2

theorem due_noStep {s : State} {l : Line} (h : s.due l) : s.noStep = none := by
  simp [State.noStep, h.1, h.2]

end Sys2Proof.Machine.State
end

