-- ==== Sys2Proof/Laws/Arith.lean ====
section
/-! SUPPORT. The laws of machine integers: range, wrap, floor quotient and remainder. -/

namespace Sys2Proof.Machine

theorem inRange_bits {n : Nat} {v : Int} :
    inRange (.bits n) v = true ↔ -(2 : Int) ^ (n - 1) ≤ v ∧ v ≤ (2 : Int) ^ (n - 1) - 1 := by
  simp [inRange, intMin, intMax]

@[simp] theorem inRange_unbounded (v : Int) : inRange .unbounded v = true := rfl

theorem two_pow_pos (k : Nat) : 0 < (2 : Int) ^ k := by positivity

/-- The range is an interval. -/
theorem inRange_between {w : Width} {a b v : Int} (ha : inRange w a = true) (hb : inRange w b = true)
    (h1 : a ≤ v) (h2 : v ≤ b) : inRange w v = true := by
  cases w with
  | unbounded => rfl
  | bits n => rw [inRange_bits] at *; omega

theorem inRange_zero (w : Width) : inRange w 0 = true := by
  cases w with
  | unbounded => rfl
  | bits n => rw [inRange_bits]; have := two_pow_pos (n - 1); omega

/-- `wrap` gives a machine integer, for every width. -/
theorem wrap_inRange (w : Width) (v : Int) : inRange w (wrap w v) = true := by
  cases w with
  | unbounded => rfl
  | bits n =>
    rw [inRange_bits]
    simp only [wrap, Nat.cast_pow, Nat.cast_ofNat]
    have hp := two_pow_pos (n - 1)
    have h1 := Int.emod_nonneg (v + 2 ^ (n - 1)) (Int.ne_of_gt (two_pow_pos n))
    have h2 := Int.emod_lt_of_pos (v + 2 ^ (n - 1)) (two_pow_pos n)
    have h3 : (2 : Int) ^ n ≤ 2 * 2 ^ (n - 1) := by
      cases n with
      | zero => simp
      | succ m => simp [Int.pow_succ, Int.mul_comm]
    omega

theorem floorMod_eq_fmod (a b : Int) : floorMod a b = Int.fmod a b := by
  have := Int.fmod_add_mul_fdiv a b
  simp only [floorMod, floorDiv]; omega

/-- Quotient and remainder belong together. -/
theorem floorDiv_add_floorMod (a b : Int) : a = b * floorDiv a b + floorMod a b := by
  simp [floorMod]

theorem floorMod_of_pos (a : Int) {b : Int} (h : 0 < b) : 0 ≤ floorMod a b ∧ floorMod a b < b := by
  rw [floorMod_eq_fmod]
  exact ⟨Int.fmod_nonneg_of_pos a h, Int.fmod_lt_of_pos a h⟩

theorem floorMod_of_neg (a : Int) {b : Int} (h : b < 0) : b < floorMod a b ∧ floorMod a b ≤ 0 := by
  rw [floorMod_eq_fmod]
  have e : Int.fmod a b = -Int.fmod (-a) (-b) := by rw [Int.neg_fmod_neg]; ring
  have h1 := Int.fmod_nonneg_of_pos (-a) (show 0 < -b by omega)
  have h2 := Int.fmod_lt_of_pos (-a) (show 0 < -b by omega)
  omega

/-- The remainder by a machine integer other than 0 is a machine integer (R90). -/
theorem floorMod_inRange {w : Width} {b : Int} (a : Int) (hb : inRange w b = true) (h : b ≠ 0) :
    inRange w (floorMod a b) = true := by
  rcases Int.lt_or_gt_of_ne h with h | h
  · have := floorMod_of_neg a h
    exact inRange_between hb (inRange_zero w) (by omega) (by omega)
  · have := floorMod_of_pos a h
    exact inRange_between (inRange_zero w) hb (by omega) (by omega)

end Sys2Proof.Machine
end

