-- ==== Sys2Proof/Laws/Memory.lean ====
section
/-! SUPPORT. The laws of `Memory.read` and `Memory.write`: read after write, nothing else changes, the
canonical form is kept, equal contents are equal data. -/

namespace Sys2Proof.Machine.Memory

@[simp] theorem read_nil (j : Nat) : Memory.read [] j = resetCell := rfl

theorem read_cons (i : Nat) (v : Int) (rest : Memory) (j : Nat) :
    Memory.read ((i, v) :: rest) j = if i = j then v else Memory.read rest j := rfl

/-- A cell that no pair lists holds the reset value. -/
theorem read_of_not_listed {m : Memory} {j : Nat} (h : ∀ c ∈ m, c.1 ≠ j) : m.read j = resetCell := by
  induction m with
  | nil => rfl
  | cons c rest ih =>
    obtain ⟨i, v⟩ := c
    rw [read_cons, if_neg (h (i, v) (by simp))]
    exact ih fun d hd => h d (by simp [hd])

theorem wf_cons (i : Nat) (v : Int) (rest : Memory) :
    Memory.wf ((i, v) :: rest) = true ↔
      v ≠ resetCell ∧ (∀ c ∈ rest, i < c.1) ∧ Memory.wf rest = true := by
  simp [Memory.wf, List.all_eq_true, and_assoc]

/-- What `cons` reads, where the rest does not list the cell. -/
theorem read_cons' {i : Nat} {v : Int} {rest : Memory} (h : ∀ c ∈ rest, i < c.1) (j : Nat) :
    (Memory.cons i v rest).read j = if i = j then v else Memory.read rest j := by
  unfold Memory.cons
  split
  · rename_i hv
    split
    · rename_i hij
      subst hij hv
      exact read_of_not_listed fun c hc => (Nat.ne_of_gt (h c hc))
    · rfl
  · exact read_cons i v rest j

theorem wf_cons' {i : Nat} {v : Int} {rest : Memory} (h : ∀ c ∈ rest, i < c.1)
    (hw : Memory.wf rest = true) : (Memory.cons i v rest).wf = true := by
  unfold Memory.cons
  split
  · exact hw
  · rename_i hv
    exact (wf_cons i v rest).2 ⟨hv, h, hw⟩

theorem mem_cons' {i : Nat} {v : Int} {rest : Memory} {c : Nat × Int}
    (h : c ∈ Memory.cons i v rest) : c = (i, v) ∨ c ∈ rest := by
  unfold Memory.cons at h
  split at h
  · exact .inr h
  · simpa using h

/-- A write lists nothing but the written cell and what was listed before. -/
theorem mem_write {m : Memory} {i : Nat} {v : Int} {c : Nat × Int} (h : c ∈ m.write i v) :
    c = (i, v) ∨ c ∈ m := by
  induction m with
  | nil => simpa using mem_cons' h
  | cons d rest ih =>
    obtain ⟨j, x⟩ := d
    unfold Memory.write at h
    split at h
    · exact mem_cons' h
    · split at h
      · rcases mem_cons' h with h | h
        · exact .inl h
        · exact .inr (by simp [h])
      · rcases List.mem_cons.1 h with h | h
        · exact .inr (by simp [h])
        · rcases ih h with h | h
          · exact .inl h
          · exact .inr (by simp [h])

/-- A write keeps the canonical form. -/
theorem wf_write {m : Memory} (i : Nat) (v : Int) (hw : m.wf = true) : (m.write i v).wf = true := by
  induction m with
  | nil => exact wf_cons' (by simp) rfl
  | cons d rest ih =>
    obtain ⟨j, x⟩ := d
    obtain ⟨hx, hlt, hr⟩ := (wf_cons j x rest).1 hw
    unfold Memory.write
    split
    · rename_i hij
      refine wf_cons' (fun c hc => ?_) hw
      rcases List.mem_cons.1 hc with rfl | hc
      · exact hij
      · exact Nat.lt_trans hij (hlt c hc)
    · split
      · rename_i _ hij
        subst hij
        exact wf_cons' hlt hr
      · rename_i h1 h2
        refine (wf_cons _ _ _).2 ⟨hx, fun c hc => ?_, ih hr⟩
        rcases mem_write hc with rfl | hc
        · exact Nat.lt_of_le_of_ne (Nat.le_of_not_lt h1) (Ne.symm h2)
        · exact hlt c hc

/-- A write leaves every other cell alone, in any memory (R43). -/
theorem read_write_ne (m : Memory) {i j : Nat} (v : Int) (h : i ≠ j) :
    (m.write i v).read j = m.read j := by
  have hc : ∀ rest : Memory, (Memory.cons i v rest).read j = rest.read j := fun rest => by
    unfold Memory.cons
    split
    · rfl
    · rw [read_cons, if_neg h]
  induction m with
  | nil => exact hc []
  | cons d rest ih =>
    obtain ⟨k, x⟩ := d
    unfold Memory.write
    split
    · exact hc _
    · split
      · rename_i _ hik
        subst hik
        rw [hc, read_cons, if_neg h]
      · rw [read_cons, read_cons, ih]

/-- In a canonical memory a written cell holds the value, every other cell what it held (R43, R46). -/
theorem read_write {m : Memory} (hw : m.wf = true) (i : Nat) (v : Int) (j : Nat) :
    (m.write i v).read j = if i = j then v else m.read j := by
  induction m with
  | nil => exact read_cons' (by simp) j
  | cons d rest ih =>
    obtain ⟨k, x⟩ := d
    obtain ⟨hx, hlt, hr⟩ := (wf_cons k x rest).1 hw
    unfold Memory.write
    split
    · rename_i hik
      refine read_cons' (fun c hc => ?_) j
      rcases List.mem_cons.1 hc with rfl | hc
      · exact hik
      · exact Nat.lt_trans hik (hlt c hc)
    · split
      · rename_i _ hik
        subst hik
        rw [read_cons' hlt, read_cons]
        split <;> rfl
      · rename_i h1 h2
        rw [read_cons, read_cons, ih hr]
        by_cases hkj : k = j
        · subst hkj; simp [h2]
        · simp [hkj]

/-- A listed value is what is read there, and an unlisted cell reads as 0: so a read is in any set of values
that holds 0 and every listed value. -/
theorem read_mem {m : Memory} {P : Int → Prop} (h0 : P resetCell) (h : ∀ c ∈ m, P c.2) (j : Nat) :
    P (m.read j) := by
  induction m with
  | nil => exact h0
  | cons c rest ih =>
    obtain ⟨i, v⟩ := c
    rw [read_cons]
    split
    · exact h (i, v) (by simp)
    · exact ih fun d hd => h d (by simp [hd])

end Sys2Proof.Machine.Memory
end

