-- ==== Sys2Proof/Laws/Operands.lean ====
section
/-! SUPPORT. What the operand functions can answer: each is good, or raises the leftmost condition of its
tokens. -/

namespace Sys2Proof.Machine

theorem inMemory_iff {p : Params} {i : Int} : inMemory p i = true ↔ 0 ≤ i ∧ i < (p.memSize : Int) := by
  simp [inMemory]

/-- A source operand is good exactly when it raises no condition (R70, R75). -/
theorem resolve_cases (s : State) (a : Src) :
    (∃ c, srcCondition s.params a = some c ∧ resolve s a = .error c) ∨
    (srcCondition s.params a = none ∧ ∃ x, resolve s a = .ok x) := by
  cases a with
  | malformed => exact .inl ⟨_, rfl, rfl⟩
  | imm v =>
    cases h : inRange s.params.xlen v <;> simp [srcCondition, resolve, h]
  | cell i =>
    by_cases h : 0 ≤ i ∧ i < (s.params.memSize : Int)
    · right; simp [srcCondition, resolve, inMemory_iff.2 h, h]
    · left
      have : inMemory s.params i = false := by
        cases hb : inMemory s.params i with
        | false => rfl
        | true => exact absurd (inMemory_iff.1 hb) h
      exact ⟨.outOfBoundsAddress, by simp only [srcCondition, if_neg h], by simp [resolve, this]⟩

theorem resolve_ok_condition {s : State} {a : Src} {x : Int} (h : resolve s a = .ok x) :
    srcCondition s.params a = none := by
  rcases resolve_cases s a with ⟨c, -, hc⟩ | ⟨hc, -⟩
  · rw [hc] at h; cases h
  · exact hc

theorem resolve_error_condition {s : State} {a : Src} {c : Fatal} (h : resolve s a = .error c) :
    srcCondition s.params a = some c := by
  rcases resolve_cases s a with ⟨d, hd, hc⟩ | ⟨-, x, hc⟩
  · rw [hc] at h; cases h; exact hd
  · rw [hc] at h; cases h

/-- A destination operand is good exactly when it raises no condition (R70, R77). -/
theorem destCell_cases (s : State) (d : Dst) :
    (dstCondition s.params d = some .invalidDestination ∧ destCell s d = .error .invalidDestination) ∨
    (dstCondition s.params d = none ∧ ∃ k, destCell s d = .ok k ∧ k < s.params.memSize) := by
  cases d with
  | invalid => exact .inl ⟨rfl, rfl⟩
  | cell i =>
    by_cases h : 0 ≤ i ∧ i < (s.params.memSize : Int)
    · right
      refine ⟨by simp [dstCondition, h], i.toNat, by simp [destCell, inMemory_iff.2 h], by omega⟩
    · left
      have : inMemory s.params i = false := by
        cases hb : inMemory s.params i with
        | false => rfl
        | true => exact absurd (inMemory_iff.1 hb) h
      exact ⟨by simp only [dstCondition, if_neg h], by simp [destCell, this]⟩

theorem destCell_ok_condition {s : State} {d : Dst} {k : Nat} (h : destCell s d = .ok k) :
    dstCondition s.params d = none ∧ k < s.params.memSize := by
  rcases destCell_cases s d with ⟨-, hc⟩ | ⟨hc, k', hk, hlt⟩
  · rw [hc] at h; cases h
  · rw [hk] at h; cases h; exact ⟨hc, hlt⟩

theorem destCell_error_condition {s : State} {d : Dst} {c : Fatal} (h : destCell s d = .error c) :
    c = .invalidDestination ∧ dstCondition s.params d = some c := by
  rcases destCell_cases s d with ⟨hd, hc⟩ | ⟨-, k', hk, -⟩
  · rw [hc] at h; cases h; exact ⟨rfl, hd⟩
  · rw [hk] at h; cases h

theorem refCondition_eq (p : Params) (r : Ref) : refCondition p r = srcCondition p (refSrc r) := by
  cases r <;> rfl

theorem noSurplus_eq (sp : Bool) :
    noSurplus sp = match surplusCondition sp with | some c => .error c | none => .ok () := by
  cases sp <;> rfl

/-! ### The operand lists -/

theorem operandsDS_cases (s : State) (d : Dst) (a : Src) (sp : Bool) :
    (∃ c, leftmost [dstCondition s.params d, srcCondition s.params a, surplusCondition sp] = some c ∧
      operandsDS s d a sp = .error c) ∨
    (leftmost [dstCondition s.params d, srcCondition s.params a, surplusCondition sp] = none ∧ sp = false ∧
      ∃ k x, destCell s d = .ok k ∧ resolve s a = .ok x ∧ operandsDS s d a sp = .ok (k, x)) := by
  rcases destCell_cases s d with ⟨h1, h1'⟩ | ⟨h1, k, h1', -⟩
  · left; exact ⟨_, by rw [h1]; rfl, by simp [operandsDS, h1', bind, Except.bind]⟩
  · rcases resolve_cases s a with ⟨c, h2, h2'⟩ | ⟨h2, x, h2'⟩
    · left; exact ⟨c, by rw [h1, h2]; rfl, by simp [operandsDS, h1', h2', bind, Except.bind]⟩
    · cases sp
      · right; exact ⟨by rw [h1, h2]; rfl, rfl, k, x, h1', h2',
          by simp [operandsDS, h1', h2', noSurplus, bind, Except.bind, pure, Except.pure]⟩
      · left; exact ⟨_, by rw [h1, h2]; rfl,
          by simp [operandsDS, h1', h2', noSurplus, bind, Except.bind]⟩

theorem operandsDSS_cases (s : State) (d : Dst) (a b : Src) (sp : Bool) :
    (∃ c, leftmost [dstCondition s.params d, srcCondition s.params a, srcCondition s.params b,
        surplusCondition sp] = some c ∧ operandsDSS s d a b sp = .error c) ∨
    (leftmost [dstCondition s.params d, srcCondition s.params a, srcCondition s.params b,
        surplusCondition sp] = none ∧ sp = false ∧
      ∃ k x y, destCell s d = .ok k ∧ resolve s a = .ok x ∧ resolve s b = .ok y ∧
        operandsDSS s d a b sp = .ok (k, x, y)) := by
  rcases destCell_cases s d with ⟨h1, h1'⟩ | ⟨h1, k, h1', -⟩
  · left; exact ⟨_, by rw [h1]; rfl, by simp [operandsDSS, h1', bind, Except.bind]⟩
  · rcases resolve_cases s a with ⟨c, h2, h2'⟩ | ⟨h2, x, h2'⟩
    · left; exact ⟨c, by rw [h1, h2]; rfl, by simp [operandsDSS, h1', h2', bind, Except.bind]⟩
    · rcases resolve_cases s b with ⟨c, h3, h3'⟩ | ⟨h3, y, h3'⟩
      · left; exact ⟨c, by rw [h1, h2, h3]; rfl, by simp [operandsDSS, h1', h2', h3', bind, Except.bind]⟩
      · cases sp
        · right; exact ⟨by rw [h1, h2, h3]; rfl, rfl, k, x, y, h1', h2', h3',
            by simp [operandsDSS, h1', h2', h3', noSurplus, bind, Except.bind, pure, Except.pure]⟩
        · left; exact ⟨_, by rw [h1, h2, h3]; rfl,
            by simp [operandsDSS, h1', h2', h3', noSurplus, bind, Except.bind]⟩

theorem operandsSS_cases (s : State) (a b : Src) (sp : Bool) :
    (∃ c, leftmost [srcCondition s.params a, srcCondition s.params b, surplusCondition sp] = some c ∧
      operandsSS s a b sp = .error c) ∨
    (leftmost [srcCondition s.params a, srcCondition s.params b, surplusCondition sp] = none ∧ sp = false ∧
      ∃ x y, resolve s a = .ok x ∧ resolve s b = .ok y ∧ operandsSS s a b sp = .ok (x, y)) := by
  rcases resolve_cases s a with ⟨c, h2, h2'⟩ | ⟨h2, x, h2'⟩
  · left; exact ⟨c, by rw [h2]; rfl, by simp [operandsSS, h2', bind, Except.bind]⟩
  · rcases resolve_cases s b with ⟨c, h3, h3'⟩ | ⟨h3, y, h3'⟩
    · left; exact ⟨c, by rw [h2, h3]; rfl, by simp [operandsSS, h2', h3', bind, Except.bind]⟩
    · cases sp
      · right; exact ⟨by rw [h2, h3]; rfl, rfl, x, y, h2', h3',
          by simp [operandsSS, h2', h3', noSurplus, bind, Except.bind, pure, Except.pure]⟩
      · left; exact ⟨_, by rw [h2, h3]; rfl, by simp [operandsSS, h2', h3', noSurplus, bind, Except.bind]⟩

theorem operandS_cases (s : State) (a : Src) (sp : Bool) :
    (∃ c, leftmost [srcCondition s.params a, surplusCondition sp] = some c ∧ operandS s a sp = .error c) ∨
    (leftmost [srcCondition s.params a, surplusCondition sp] = none ∧ sp = false ∧
      ∃ x, resolve s a = .ok x ∧ operandS s a sp = .ok x) := by
  rcases resolve_cases s a with ⟨c, h2, h2'⟩ | ⟨h2, x, h2'⟩
  · left; exact ⟨c, by rw [h2]; rfl, by simp [operandS, h2', bind, Except.bind]⟩
  · cases sp
    · right; exact ⟨by rw [h2]; rfl, rfl, x, h2',
        by simp [operandS, h2', noSurplus, bind, Except.bind, pure, Except.pure]⟩
    · left; exact ⟨_, by rw [h2]; rfl, by simp [operandS, h2', noSurplus, bind, Except.bind]⟩

theorem operandD_cases (s : State) (d : Dst) (sp : Bool) :
    (∃ c, leftmost [dstCondition s.params d, surplusCondition sp] = some c ∧ operandD s d sp = .error c) ∨
    (leftmost [dstCondition s.params d, surplusCondition sp] = none ∧ sp = false ∧
      ∃ k, destCell s d = .ok k ∧ operandD s d sp = .ok k) := by
  rcases destCell_cases s d with ⟨h1, h1'⟩ | ⟨h1, k, h1', -⟩
  · left; exact ⟨_, by rw [h1]; rfl, by simp [operandD, h1', bind, Except.bind]⟩
  · cases sp
    · right; exact ⟨by rw [h1]; rfl, rfl, k, h1',
        by simp [operandD, h1', noSurplus, bind, Except.bind, pure, Except.pure]⟩
    · left; exact ⟨_, by rw [h1]; rfl, by simp [operandD, h1', noSurplus, bind, Except.bind]⟩

end Sys2Proof.Machine
end

