-- ==== Sys2Proof/Laws/Text.lean ====
section
/-! SUPPORT. The laws of the decoder's string functions: trimming, tokens, stripping, brackets, integer
literals, joining. -/

namespace Sys2Proof

/-! ### Tokens -/

/-- `Tokens` skips whitespace in front. -/
theorem tokens_cons_space {c : Char} {s : Line} (h : isSpace c = true) : tokens (c :: s) = tokens s := by
  simp [tokens, h]

theorem tokens_spaces_append {pre s : Line} (h : ∀ c ∈ pre, isSpace c = true) :
    tokens (pre ++ s) = tokens s := by
  induction pre with
  | nil => rfl
  | cons c pre ih =>
    rw [List.cons_append, tokens_cons_space (h c (by simp))]
    exact ih fun d hd => h d (by simp [hd])

/-- A run of non-whitespace that whitespace or the end follows is the first token. -/
theorem tokens_run_append {w rest : Line} (hne : w ≠ []) (hw : ∀ c ∈ w, isSpace c = false)
    (hr : ∀ c, rest.head? = some c → isSpace c = true) : tokens (w ++ rest) = w :: tokens rest := by
  induction w with
  | nil => exact absurd rfl hne
  | cons c w ih =>
    have hc : isSpace c = false := hw c (by simp)
    cases w with
    | nil =>
      cases rest with
      | nil => simp [tokens, hc, consToken]
      | cons d rest => simp [tokens, hc, consToken, hr d rfl]
    | cons d w =>
      have hd : isSpace d = false := hw d (by simp)
      have := ih (by simp) fun e he => hw e (by simp [he])
      rw [List.cons_append, tokens, if_neg (by simp [hc]), this]
      simp [consToken, hd]

theorem tokens_run {w : Line} (hne : w ≠ []) (hw : ∀ c ∈ w, isSpace c = false) : tokens w = [w] := by
  simpa [tokens] using tokens_run_append (rest := []) hne hw (by simp)

/-- Every token is a non-empty string without whitespace. -/
theorem tokens_wf (s : Line) : ∀ t ∈ tokens s, t ≠ [] ∧ ∀ c ∈ t, isSpace c = false := by
  induction s with
  | nil => simp [tokens]
  | cons c s ih =>
    intro t ht
    rw [tokens] at ht
    split at ht
    · exact ih t ht
    · rename_i hc
      have hc : isSpace c = false := by simpa using hc
      unfold consToken at ht
      split at ht
      · rcases List.mem_cons.1 ht with rfl | ht
        · simpa using hc
        · exact ih t ht
      · split at ht
        · simp only [List.mem_singleton] at ht
          subst ht; simpa using hc
        · rename_i u us hus
          rw [hus] at ih
          rcases List.mem_cons.1 ht with rfl | ht
          · refine ⟨by simp, fun d hd => ?_⟩
            rcases List.mem_cons.1 hd with rfl | hd
            · exact hc
            · exact (ih u (by simp)).2 d hd
          · exact ih t (by simp [ht])

/-- A line has no token exactly when it is all whitespace. -/
theorem tokens_eq_nil {s : Line} : tokens s = [] ↔ ∀ c ∈ s, isSpace c = true := by
  induction s with
  | nil => simp [tokens]
  | cons c s ih =>
    rw [tokens]
    split
    · rename_i hc; simp [ih, hc]
    · rename_i hc
      constructor
      · intro h
        unfold consToken at h
        split at h
        · simp at h
        · split at h <;> simp at h
      · intro h; exact absurd (h c (by simp)) hc

/-- Whitespace at the end of a line makes no difference to its tokens. -/
theorem tokens_append_spaces (s : Line) {suf : Line} (h : ∀ c ∈ suf, isSpace c = true) :
    tokens (s ++ suf) = tokens s := by
  induction s with
  | nil => exact tokens_eq_nil.2 h
  | cons c s ih =>
    have hc : consToken c (s ++ suf) (tokens s) = consToken c s (tokens s) := by
      cases s with
      | nil =>
        cases suf with
        | nil => rfl
        | cons d suf => simp [consToken, h d (by simp)]
      | cons d s => rfl
    rw [List.cons_append, tokens, tokens, ih, hc]

/-! ### Trimming -/

theorem takeWhile_all (s : Line) : ∀ c ∈ s.takeWhile isSpace, isSpace c = true := fun c hc => by
  simpa using List.mem_takeWhile_imp hc

/-- What `Trim` takes off at the right end. -/
def rightSpaces (s : Line) : Line := (((s.dropWhile isSpace).reverse).takeWhile isSpace).reverse

theorem rightSpaces_all (s : Line) : ∀ c ∈ rightSpaces s, isSpace c = true := fun c hc =>
  takeWhile_all _ c (by simpa [rightSpaces] using hc)

/-- A line is what `Trim` takes off on the left, what it keeps, and what it takes off on the right. -/
theorem trim_decomposition (s : Line) : s = s.takeWhile isSpace ++ trim s ++ rightSpaces s := by
  have h : trim s ++ rightSpaces s = s.dropWhile isSpace := by
    unfold trim rightSpaces
    rw [← List.reverse_append, List.takeWhile_append_dropWhile, List.reverse_reverse]
  rw [List.append_assoc, h, List.takeWhile_append_dropWhile]

theorem trim_getLast (s : Line) (c : Char) (h : (trim s).getLast? = some c) : isSpace c = false := by
  unfold trim at h
  rw [List.getLast?_reverse] at h
  have := List.head?_dropWhile_not isSpace (s.dropWhile isSpace).reverse
  rw [h] at this
  simpa using this

theorem trim_head (s : Line) (c : Char) (h : (trim s).head? = some c) : isSpace c = false := by
  have hd : s.dropWhile isSpace = trim s ++ rightSpaces s := by
    unfold trim rightSpaces
    rw [← List.reverse_append, List.takeWhile_append_dropWhile, List.reverse_reverse]
  have := List.head?_dropWhile_not isSpace s
  rw [hd] at this
  cases ht : trim s with
  | nil => rw [ht] at h; simp at h
  | cons d r =>
    rw [ht] at h this
    simp only [List.head?_cons, Option.some.injEq] at h
    subst h
    simpa using this

theorem tokens_trim (s : Line) : tokens (trim s) = tokens s := by
  conv_rhs => rw [trim_decomposition s, List.append_assoc]
  rw [tokens_spaces_append (takeWhile_all s), tokens_append_spaces _ (rightSpaces_all s)]

theorem trim_eq_nil {s : Line} : trim s = [] ↔ ∀ c ∈ s, isSpace c = true := by
  constructor
  · intro h c hc
    rw [trim_decomposition s, h] at hc
    rcases List.mem_append.1 hc with hc | hc
    · exact takeWhile_all s c (by simpa using hc)
    · exact rightSpaces_all s c hc
  · intro h
    have : s.dropWhile isSpace = [] := List.dropWhile_eq_nil_iff.2 h
    simp [trim, this]

/-- The blank test and the token list agree. -/
theorem trim_eq_nil_iff_tokens {s : Line} : trim s = [] ↔ tokens s = [] := by
  rw [trim_eq_nil, tokens_eq_nil]

/-- Decoding is a function of the tokens. -/
theorem decode_eq (l : Line) : decode l = decodeTokens (tokens l) := by
  unfold decode
  split
  · rename_i h
    rw [trim_eq_nil_iff_tokens.1 h]
    rfl
  · rw [tokens_trim]

/-! ### Joining -/

/-- Tokens joined by single spaces are the tokens of the joined line. -/
theorem tokens_join {ts : List Token} (h : ∀ t ∈ ts, t ≠ [] ∧ ∀ c ∈ t, isSpace c = false) :
    tokens (join [' '] ts) = ts := by
  induction ts with
  | nil => rfl
  | cons t ts ih =>
    obtain ⟨hne, hw⟩ := h t (by simp)
    cases ts with
    | nil => exact tokens_run hne hw
    | cons u us =>
      rw [join, List.append_assoc, tokens_run_append hne hw (by simp; decide)]
      rw [List.singleton_append, tokens_cons_space (by decide)]
      rw [ih fun v hv => h v (by simp [hv])]

/-! ### Stripping and brackets -/

theorem strip_commaed (t : Token) : strip (t ++ [',']) = t := by simp [strip]

theorem strip_of_getLast {t : Token} (h : t.getLast? ≠ some ',') : strip t = t := by simp [strip, h]

theorem bracket_strip (u : List Char) : strip (bracket u) = bracket u := by
  apply strip_of_getLast
  simp [bracket, List.getLast?_cons]

theorem bracket_isBracketed (u : List Char) : isBracketed (bracket u) = true := by
  simp [isBracketed, bracket, List.getLast?_cons]

theorem bracket_inner (u : List Char) : inner (bracket u) = u := by simp [inner, bracket]

/-- The bracket test says that the token has the form `[inner]`. -/
theorem isBracketed_iff {u : Token} : isBracketed u = true ↔ u = bracket (inner u) := by
  constructor
  · intro h
    simp only [isBracketed, Bool.and_eq_true, decide_eq_true_eq, beq_iff_eq] at h
    obtain ⟨⟨hl, hh⟩, hg⟩ := h
    match u, hl, hh with
    | c :: d :: r, _, hh =>
      simp only [List.head?_cons, Option.some.injEq] at hh
      subst hh
      have hg' : (d :: r).getLast? = some ']' := by simpa [List.getLast?_cons] using hg
      have := List.dropLast_append_getLast? ']' hg'
      simp [bracket, inner, this]
  · intro h
    rw [h]
    exact bracket_isBracketed _

/-! ### Integer literals -/

theorem digitChar_facts {n : Nat} (h : n < 10) :
    (digitChar n).toNat = 48 + n ∧ isDigit (digitChar n) = true ∧ isSpace (digitChar n) = false ∧
      digitChar n ≠ '-' ∧ digitChar n ≠ '+' ∧ digitChar n ≠ '[' ∧ digitChar n ≠ ',' := by
  have : ∀ k < 10, (digitChar k).toNat = 48 + k ∧ isDigit (digitChar k) = true ∧
      isSpace (digitChar k) = false ∧ digitChar k ≠ '-' ∧ digitChar k ≠ '+' ∧ digitChar k ≠ '[' ∧
      digitChar k ≠ ',' := by decide
  exact this n h

theorem digitsValue_append (ds es : List Char) :
    digitsValue (ds ++ es) = es.foldl (fun n c => 10 * n + (c.toNat - 48)) (digitsValue ds) := by
  simp [digitsValue, List.foldl_append]

theorem digitsValue_snoc (ds : List Char) (c : Char) :
    digitsValue (ds ++ [c]) = 10 * digitsValue ds + (c.toNat - 48) := by
  simp [digitsValue_append]

/-- With enough fuel the rendered digits are some digits of `n`'s value in front of `acc`. -/
theorem renderNatAux_spec (fuel n : Nat) (acc : List Char) (h : n < 10 ^ fuel) (h0 : 0 < fuel) :
    ∃ ds, renderNatAux fuel n acc = ds ++ acc ∧ ds ≠ [] ∧ digitsValue ds = n ∧
      ∀ c ∈ ds, ∃ k < 10, c = digitChar k := by
  induction fuel generalizing n acc with
  | zero => omega
  | succ fuel ih =>
    rw [renderNatAux]
    split
    · rename_i hn
      refine ⟨[digitChar n], rfl, by simp, ?_, fun c hc => ⟨n, hn, by simpa using hc⟩⟩
      simp [digitsValue, (digitChar_facts hn).1]
    · rename_i hn
      have hf : 0 < fuel := by
        rcases Nat.eq_zero_or_pos fuel with rfl | hp
        · simp at h; omega
        · exact hp
      have hlt : n / 10 < 10 ^ fuel := by
        rw [Nat.div_lt_iff_lt_mul (by decide)]
        rwa [Nat.pow_succ] at h
      obtain ⟨ds, he, hne, hv, hall⟩ := ih (n / 10) (digitChar (n % 10) :: acc) hlt hf
      have hm : n % 10 < 10 := Nat.mod_lt _ (by decide)
      refine ⟨ds ++ [digitChar (n % 10)], by simp [he], by simp, ?_, fun c hc => ?_⟩
      · rw [digitsValue_snoc, hv, (digitChar_facts hm).1]; omega
      · rcases List.mem_append.1 hc with hc | hc
        · exact hall c hc
        · exact ⟨n % 10, hm, by simpa using hc⟩

theorem renderNat_spec (n : Nat) :
    renderNat n ≠ [] ∧ digitsValue (renderNat n) = n ∧ ∀ c ∈ renderNat n, ∃ k < 10, c = digitChar k := by
  have h : n < 10 ^ (Nat.log2 n + 1) :=
    Nat.lt_of_lt_of_le (Nat.lt_log2_self) (Nat.pow_le_pow_left (by decide) _)
  obtain ⟨ds, he, hne, hv, hall⟩ := renderNatAux_spec _ n [] h (by omega)
  rw [List.append_nil] at he
  rw [renderNat, he]
  exact ⟨hne, hv, hall⟩

theorem parseDigits_eq_some {ds : List Char} {n : Nat} :
    parseDigits ds = some n ↔ ds ≠ [] ∧ (∀ c ∈ ds, isDigit c = true) ∧ digitsValue ds = n := by
  unfold parseDigits
  split
  · rename_i h; simp only [List.all_eq_true] at h; simp [h.1]; intro _; exact h.2
  · rename_i h; simp only [List.all_eq_true, not_and] at h
    simp only [reduceCtorEq, false_iff, not_and]
    intro h1 h2; exact absurd h2 (h h1)

theorem parseDigits_renderNat (n : Nat) : parseDigits (renderNat n) = some n := by
  obtain ⟨hne, hv, hall⟩ := renderNat_spec n
  refine parseDigits_eq_some.2 ⟨hne, fun c hc => ?_, hv⟩
  obtain ⟨k, hk, rfl⟩ := hall c hc
  exact (digitChar_facts hk).2.1

/-- Reading back what the encoder writes for an integer. -/
theorem parseInt_renderInt (v : Int) : parseInt (renderInt v) = some v := by
  cases v with
  | ofNat n =>
    obtain ⟨hne, hv, hall⟩ := renderNat_spec n
    have hp := parseDigits_renderNat n
    rw [renderInt]
    cases hr : renderNat n with
    | nil => exact absurd hr hne
    | cons c ds =>
      obtain ⟨k, hk, hc⟩ := hall c (by simp [hr])
      have f := digitChar_facts hk
      rw [hr] at hp
      rw [parseInt, if_neg (by rw [hc]; exact f.2.2.2.1), if_neg (by rw [hc]; exact f.2.2.2.2.1), hp]
      rfl
  | negSucc n =>
    rw [renderInt, parseInt, if_pos rfl, parseDigits_renderNat]
    rfl

/-- A rendered integer is a string of digits, with a minus sign in front or not. -/
theorem renderInt_char (v : Int) : renderInt v ≠ [] ∧
    ∀ c ∈ renderInt v, isSpace c = false ∧ c ≠ '[' ∧ c ≠ ',' := by
  have hd : ∀ n, ∀ c ∈ renderNat n, isSpace c = false ∧ c ≠ '[' ∧ c ≠ ',' := fun n c hc => by
    obtain ⟨k, hk, rfl⟩ := (renderNat_spec n).2.2 c hc
    have f := digitChar_facts hk
    exact ⟨f.2.2.1, f.2.2.2.2.2.1, f.2.2.2.2.2.2⟩
  cases v with
  | ofNat n => exact ⟨(renderNat_spec n).1, hd n⟩
  | negSucc n =>
    refine ⟨by simp [renderInt], fun c hc => ?_⟩
    rcases List.mem_cons.1 (by simpa [renderInt] using hc) with rfl | hc
    · decide
    · exact hd _ c hc

theorem renderInt_strip (v : Int) : strip (renderInt v) = renderInt v :=
  strip_of_getLast fun h => ((renderInt_char v).2 ',' (List.mem_of_getLast? h)).2.2 rfl

theorem renderInt_not_bracketed (v : Int) : isBracketed (renderInt v) = false := by
  cases h : isBracketed (renderInt v) with
  | false => rfl
  | true =>
    have := isBracketed_iff.1 h
    have hm : '[' ∈ renderInt v := by rw [this]; simp [bracket]
    exact absurd rfl ((renderInt_char v).2 '[' hm).2.1

/-! ### Operand tokens -/

/-- Reading back the encoder's source operand, with a comma after it or not. -/
theorem decodeSrc_token (a : Src) :
    decodeSrc (some a.token) = a ∧ decodeSrc (some (commaed a.token)) = a := by
  have key : ∀ u, strip u = a.token → decodeSrc (some u) = a := fun u hu => by
    cases a with
    | imm v =>
      simp only [Src.token] at hu
      simp [decodeSrc, hu, renderInt_not_bracketed, parseInt_renderInt]
    | cell i =>
      simp only [Src.token] at hu
      simp [decodeSrc, hu, bracket_isBracketed, bracket_inner, parseInt_renderInt]
    | malformed =>
      simp only [Src.token] at hu
      simp only [decodeSrc, hu]
      decide
  refine ⟨key _ ?_, key _ (strip_commaed _)⟩
  cases a with
  | imm v => exact renderInt_strip v
  | cell i => exact bracket_strip _
  | malformed => decide

/-- Reading back the encoder's destination operand, with a comma after it or not. -/
theorem decodeDst_token (d : Dst) :
    decodeDst (some d.token) = d ∧ decodeDst (some (commaed d.token)) = d := by
  have key : ∀ u, strip u = d.token → decodeDst (some u) = d := fun u hu => by
    cases d with
    | cell i =>
      simp only [Dst.token] at hu
      simp [decodeDst, hu, bracket_isBracketed, bracket_inner, parseInt_renderInt]
    | invalid =>
      simp only [Dst.token] at hu
      simp only [decodeDst, hu]
      decide
  refine ⟨key _ ?_, key _ (strip_commaed _)⟩
  cases d with
  | cell i => exact bracket_strip _
  | invalid => decide

/-- Reading back the encoder's bracketed operand. -/
theorem decodeRef_token (r : Ref) :
    isBracketed (strip r.token) = true ∧ decodeRef r.token = r := by
  cases r with
  | cell i => simp [Ref.token, decodeRef, bracket_strip, bracket_isBracketed, bracket_inner, parseInt_renderInt]
  | malformed => decide

/-! ### Opcodes -/

theorem mem_all (o : Opcode) : o ∈ Opcode.all := by cases o <;> decide

theorem token_injective : ∀ o ∈ Opcode.all, ∀ o' ∈ Opcode.all, o.token = o'.token → o = o' := by decide

theorem selectOpcode_eq_some {t : Token} {o : Opcode} : selectOpcode t = some o ↔ t = o.token := by
  constructor
  · intro h
    have := List.find?_some h
    exact (beq_iff_eq.1 this).symm
  · rintro rfl
    cases o <;> decide

theorem selectOpcode_eq_none {t : Token} : selectOpcode t = none ↔ ∀ o : Opcode, t ≠ o.token := by
  constructor
  · intro h o ho
    rw [selectOpcode_eq_some.2 ho] at h
    cases h
  · intro h
    cases hs : selectOpcode t with
    | none => rfl
    | some o => exact absurd (selectOpcode_eq_some.1 hs) (h o)

@[simp] theorem selectOpcode_token (o : Opcode) : selectOpcode o.token = some o :=
  selectOpcode_eq_some.2 rfl

end Sys2Proof
end

