-- ==== Sys2Proof/Laws/PerInstr.lean ====
section
/-! SUPPORT. Statements made per instruction. Family `TokenRoundTrip`: the decoder reads an instruction back
from the encoder's tokens of it. -/

namespace Sys2Proof.Laws.TokenRoundTrip

/-- The decoder reads `i` back from its canonical tokens, where `i`'s print text is one a print-text line can
have. -/
def Statement (i : Instr) : Prop :=
  (∀ ts, i = .intPrintText ts → textWf ts = true) → decodeTokens i.tokens = .ok i

theorem tokens_opcode (o : Opcode) (ts : List Token) :
    decodeTokens (o.token :: ts) = .ok (decodeFields o ts) := by
  simp [decodeTokens]

theorem mov (d : Dst) (a : Src) (sp : Bool) : Statement (.mov d a sp) := fun _ => by
  cases sp <;>
    simp [Instr.tokens, tokensDS, tokens_opcode, decodeFields, surplusToken, decodeDst_token, decodeSrc_token]

theorem dss (o : Opcode) (f : Dst → Src → Src → Bool → Instr)
    (ho : ∀ ts, decodeFields o ts =
      f (decodeDst ts[0]?) (decodeSrc ts[1]?) (decodeSrc ts[2]?) (decide (3 < ts.length)))
    (d : Dst) (a b : Src) (sp : Bool) : decodeTokens (tokensDSS o d a b sp) = .ok (f d a b sp) := by
  cases sp <;>
    simp [tokensDSS, tokens_opcode, ho, surplusToken, decodeDst_token, decodeSrc_token]

theorem add (d : Dst) (a b : Src) (sp : Bool) : Statement (.add d a b sp) := fun _ =>
  dss .add .add (fun _ => rfl) d a b sp

theorem sub (d : Dst) (a b : Src) (sp : Bool) : Statement (.sub d a b sp) := fun _ =>
  dss .sub .sub (fun _ => rfl) d a b sp

theorem mul (d : Dst) (a b : Src) (sp : Bool) : Statement (.mul d a b sp) := fun _ =>
  dss .mul .mul (fun _ => rfl) d a b sp

theorem div (d : Dst) (a b : Src) (sp : Bool) : Statement (.div d a b sp) := fun _ =>
  dss .div .div (fun _ => rfl) d a b sp

theorem mod (d : Dst) (a b : Src) (sp : Bool) : Statement (.mod d a b sp) := fun _ =>
  dss .mod .mod (fun _ => rfl) d a b sp

theorem cmp (a b : Src) (sp : Bool) : Statement (.cmp a b sp) := fun _ => by
  cases sp <;>
    simp [Instr.tokens, tokens_opcode, decodeFields, surplusToken, decodeSrc_token]

theorem target (o : Opcode) (f : Src → Bool → Instr)
    (ho : ∀ ts, decodeFields o ts = f (decodeSrc ts[0]?) (decide (1 < ts.length)))
    (t : Src) (sp : Bool) : decodeTokens (tokensT o t sp) = .ok (f t sp) := by
  cases sp <;> simp [tokensT, tokens_opcode, ho, surplusToken, decodeSrc_token]

theorem jmp (t : Src) (sp : Bool) : Statement (.jmp t sp) := fun _ => target .jmp .jmp (fun _ => rfl) t sp

theorem jl (t : Src) (sp : Bool) : Statement (.jl t sp) := fun _ => target .jl .jl (fun _ => rfl) t sp

theorem jg (t : Src) (sp : Bool) : Statement (.jg t sp) := fun _ => target .jg .jg (fun _ => rfl) t sp

theorem jle (t : Src) (sp : Bool) : Statement (.jle t sp) := fun _ => target .jle .jle (fun _ => rfl) t sp

theorem jge (t : Src) (sp : Bool) : Statement (.jge t sp) := fun _ => target .jge .jge (fun _ => rfl) t sp

theorem je (t : Src) (sp : Bool) : Statement (.je t sp) := fun _ => target .je .je (fun _ => rfl) t sp

theorem jne (t : Src) (sp : Bool) : Statement (.jne t sp) := fun _ => target .jne .jne (fun _ => rfl) t sp

theorem upper_print : upper keywordPrint = keywordPrint := by decide

theorem upper_input : upper ['I', 'N', 'P', 'U', 'T'] ≠ keywordPrint := by decide

theorem intPrintValue (r : Ref) (sp : Bool) : Statement (.intPrintValue r sp) := fun _ => by
  cases sp <;>
    simp [Instr.tokens, tokens_opcode, decodeFields, decodeInt, upper_print, surplusToken, decodeRef_token]

theorem intPrintText (ts : List Token) : Statement (.intPrintText ts) := fun h => by
  have hw := h ts rfl
  cases ts with
  | nil => simp [Instr.tokens, tokens_opcode, decodeFields, decodeInt, upper_print]
  | cons t more =>
    simp only [textWf, List.head?_cons, Option.map_some, Option.getD_some, Bool.and_eq_true,
      Bool.not_eq_eq_eq_not, Bool.not_true] at hw
    simp [Instr.tokens, tokens_opcode, decodeFields, decodeInt, upper_print, hw.2]

theorem intInput (d : Dst) (sp : Bool) : Statement (.intInput d sp) := fun _ => by
  cases sp <;>
    simp [Instr.tokens, tokens_opcode, decodeFields, decodeInt, upper_input, surplusToken, decodeDst_token]

theorem hlt (sp : Bool) : Statement (.hlt sp) := fun _ => by
  cases sp <;> simp [Instr.tokens, tokens_opcode, decodeFields, surplusToken]

theorem blankLine : Statement .blankLine := fun _ => rfl

end Sys2Proof.Laws.TokenRoundTrip
end

