-- ==== Sys2Proof/Laws/Step.lean ====
section
/-! SUPPORT. What each shared operation, each instruction and a step can do, said once. -/

namespace Sys2Proof.Machine

theorem raise_eq (c : Fatal) (s : State) : raise c s = .next (s.faultedBy c s.line) := rfl

theorem recover_eq (c : Recoverable) (s : State) : recover c s = .next (s.report c).advance := rfl

theorem orRaise_ok {α : Type} (a : α) (s : State) (k : α → Res) : orRaise (.ok a) s k = k a := rfl

theorem orRaise_error {α : Type} (c : Fatal) (s : State) (k : α → Res) :
    orRaise (.error c) s k = .next (s.faultedBy c s.line) := rfl

/-- What MOV can do. -/
theorem execMov_cases (d : Dst) (a : Src) (sp : Bool) (s : State) :
    (∃ c, leftmost (operandConditions s.params (.mov d a sp)) = some c ∧
      exec (.mov d a sp) s = .next (s.faultedBy c s.line)) ∨
    (leftmost (operandConditions s.params (.mov d a sp)) = none ∧ sp = false ∧
      ∃ k x, destCell s d = .ok k ∧ resolve s a = .ok x ∧
        exec (.mov d a sp) s = .next (s.writeCell k x).advance) := by
  rcases operandsDS_cases s d a sp with ⟨c, h, h'⟩ | ⟨h, hsp, k, x, hk, hx, h'⟩
  · exact .inl ⟨c, h, by simp [exec, execMov, h', orRaise_error]⟩
  · exact .inr ⟨h, hsp, k, x, hk, hx, by simp [exec, execMov, h', orRaise_ok]⟩

/-- What the common sequence of ADD, SUB and MUL can do. -/
theorem arith_cases (f : Int → Int → Int) (d : Dst) (a b : Src) (sp : Bool) (s : State) :
    (∃ c, leftmost [dstCondition s.params d, srcCondition s.params a, srcCondition s.params b,
        surplusCondition sp] = some c ∧ arith f d a b sp s = .next (s.faultedBy c s.line)) ∨
    (leftmost [dstCondition s.params d, srcCondition s.params a, srcCondition s.params b,
        surplusCondition sp] = none ∧ sp = false ∧
      ∃ k x y, destCell s d = .ok k ∧ resolve s a = .ok x ∧ resolve s b = .ok y ∧
        arith f d a b sp s = .next (s.writeCell k (f x y)).advance) := by
  rcases operandsDSS_cases s d a b sp with ⟨c, h, h'⟩ | ⟨h, hsp, k, x, y, hk, hx, hy, h'⟩
  · exact .inl ⟨c, h, by simp [arith, h', orRaise_error]⟩
  · exact .inr ⟨h, hsp, k, x, y, hk, hx, hy, by simp [arith, h', orRaise_ok]⟩

/-- What the common sequence of DIV and MOD can do. -/
theorem divide_cases (f : Int → Int → Int) (d : Dst) (a b : Src) (sp : Bool) (s : State) :
    (∃ c, leftmost [dstCondition s.params d, srcCondition s.params a, srcCondition s.params b,
        surplusCondition sp] = some c ∧ divide f d a b sp s = .next (s.faultedBy c s.line)) ∨
    (leftmost [dstCondition s.params d, srcCondition s.params a, srcCondition s.params b,
        surplusCondition sp] = none ∧ sp = false ∧
      ∃ k x y, destCell s d = .ok k ∧ resolve s a = .ok x ∧ resolve s b = .ok y ∧
        (y = 0 ∧ divide f d a b sp s = .next (s.report .divisionByZero).advance ∨
          y ≠ 0 ∧ divide f d a b sp s = .next (s.writeCell k (f x y)).advance)) := by
  rcases operandsDSS_cases s d a b sp with ⟨c, h, h'⟩ | ⟨h, hsp, k, x, y, hk, hx, hy, h'⟩
  · exact .inl ⟨c, h, by simp [divide, h', orRaise_error]⟩
  · refine .inr ⟨h, hsp, k, x, y, hk, hx, hy, ?_⟩
    by_cases hy0 : y = 0
    · exact .inl ⟨hy0, by simp [divide, h', orRaise_ok, hy0, recover_eq]⟩
    · exact .inr ⟨hy0, by simp [divide, h', orRaise_ok, hy0]⟩

/-- What CMP can do. -/
theorem execCmp_cases (a b : Src) (sp : Bool) (s : State) :
    (∃ c, leftmost (operandConditions s.params (.cmp a b sp)) = some c ∧
      exec (.cmp a b sp) s = .next (s.faultedBy c s.line)) ∨
    (leftmost (operandConditions s.params (.cmp a b sp)) = none ∧ sp = false ∧
      ∃ x y, resolve s a = .ok x ∧ resolve s b = .ok y ∧
        exec (.cmp a b sp) s = .next (s.setFlags (compareFlags x y)).advance) := by
  rcases operandsSS_cases s a b sp with ⟨c, h, h'⟩ | ⟨h, hsp, x, y, hx, hy, h'⟩
  · exact .inl ⟨c, h, by simp [exec, execCmp, h', orRaise_error]⟩
  · exact .inr ⟨h, hsp, x, y, hx, hy, by simp [exec, execCmp, h', orRaise_ok]⟩

/-- What a branch can do. -/
theorem branch_cases (cond : Flags → Bool) (t : Src) (sp : Bool) (s : State) :
    (∃ c, leftmost [srcCondition s.params t, surplusCondition sp] = some c ∧
      branch cond t sp s = .next (s.faultedBy c s.line)) ∨
    (leftmost [srcCondition s.params t, surplusCondition sp] = none ∧ sp = false ∧
      ∃ x, resolve s t = .ok x ∧
        branch cond t sp s = .next (s.setPc (if cond s.flags then x else s.pc + 1))) := by
  rcases operandS_cases s t sp with ⟨c, h, h'⟩ | ⟨h, hsp, x, hx, h'⟩
  · exact .inl ⟨c, h, by simp [branch, h', orRaise_error]⟩
  · refine .inr ⟨h, hsp, x, hx, ?_⟩
    cases hc : cond s.flags <;> simp [branch, h', orRaise_ok, hc, State.advance]

/-- What the print-value form can do. -/
theorem execIntPrintValue_cases (r : Ref) (sp : Bool) (s : State) :
    (∃ c, leftmost (operandConditions s.params (.intPrintValue r sp)) = some c ∧
      exec (.intPrintValue r sp) s = .next (s.faultedBy c s.line)) ∨
    (leftmost (operandConditions s.params (.intPrintValue r sp)) = none ∧ sp = false ∧
      ∃ x, resolve s (refSrc r) = .ok x ∧
        exec (.intPrintValue r sp) s = .next (s.emit (.value x)).advance) := by
  have e : operandConditions s.params (.intPrintValue r sp) =
      [srcCondition s.params (refSrc r), surplusCondition sp] := by
    rw [← refCondition_eq]; rfl
  rw [e]
  rcases operandS_cases s (refSrc r) sp with ⟨c, h, h'⟩ | ⟨h, hsp, x, hx, h'⟩
  · exact .inl ⟨c, h, by simp [exec, execIntPrintValue, h', orRaise_error]⟩
  · exact .inr ⟨h, hsp, x, hx, by simp [exec, execIntPrintValue, h', orRaise_ok]⟩

/-- What the input form can do. -/
theorem execIntInput_cases (d : Dst) (sp : Bool) (s : State) :
    (∃ c, leftmost (operandConditions s.params (.intInput d sp)) = some c ∧
      exec (.intInput d sp) s = .next (s.faultedBy c s.line)) ∨
    (leftmost (operandConditions s.params (.intInput d sp)) = none ∧ sp = false ∧
      ∃ k, destCell s d = .ok k ∧
        (s.nextRecord = none ∧ exec (.intInput d sp) s = .fault .waitingForInput ∨
          ∃ r, s.nextRecord = some r ∧
            (inputValue s.params r = none ∧
                exec (.intInput d sp) s = .next (s.consume.faultedBy .invalidInput s.line) ∨
              ∃ v, inputValue s.params r = some v ∧
                exec (.intInput d sp) s = .next (s.consume.writeCell k v).advance))) := by
  rcases operandD_cases s d sp with ⟨c, h, h'⟩ | ⟨h, hsp, k, hk, h'⟩
  · exact .inl ⟨c, h, by simp [exec, execIntInput, h', orRaise_error]⟩
  · refine .inr ⟨h, hsp, k, hk, ?_⟩
    cases hr : s.nextRecord with
    | none => exact .inl ⟨rfl, by simp [exec, execIntInput, h', orRaise_ok, hr]⟩
    | some r =>
      refine .inr ⟨r, rfl, ?_⟩
      cases hv : inputValue s.params r with
      | none => exact .inl ⟨rfl, by simp [exec, execIntInput, h', orRaise_ok, hr, hv, raise_eq]⟩
      | some v => exact .inr ⟨v, rfl, by simp [exec, execIntInput, h', orRaise_ok, hr, hv]⟩

theorem execHlt_eq (sp : Bool) (s : State) :
    exec (.hlt sp) s = if sp then .next (s.faultedBy .malformedOperand s.line) else .next s.halt := by
  cases sp <;> rfl

/-- The effect an instruction has where its operands raise no condition, as an outcome with the next state
written by the updates of Machine/Ops.lean. -/
inductive Effect (s : State) : Instr → Res → Prop where
  | mov {d a k x} : destCell s d = .ok k → resolve s a = .ok x →
      Effect s (.mov d a false) (.next (s.writeCell k x).advance)
  | add {d a b k x y} : destCell s d = .ok k → resolve s a = .ok x → resolve s b = .ok y →
      Effect s (.add d a b false) (.next (s.writeCell k (wrap s.params.xlen (x + y))).advance)
  | sub {d a b k x y} : destCell s d = .ok k → resolve s a = .ok x → resolve s b = .ok y →
      Effect s (.sub d a b false) (.next (s.writeCell k (wrap s.params.xlen (x - y))).advance)
  | mul {d a b k x y} : destCell s d = .ok k → resolve s a = .ok x → resolve s b = .ok y →
      Effect s (.mul d a b false) (.next (s.writeCell k (wrap s.params.xlen (x * y))).advance)
  | div {d a b k x y} : destCell s d = .ok k → resolve s a = .ok x → resolve s b = .ok y → y ≠ 0 →
      Effect s (.div d a b false) (.next (s.writeCell k (wrap s.params.xlen (floorDiv x y))).advance)
  | divZero {d a b k x} : destCell s d = .ok k → resolve s a = .ok x → resolve s b = .ok 0 →
      Effect s (.div d a b false) (.next (s.report .divisionByZero).advance)
  | mod {d a b k x y} : destCell s d = .ok k → resolve s a = .ok x → resolve s b = .ok y → y ≠ 0 →
      Effect s (.mod d a b false) (.next (s.writeCell k (floorMod x y)).advance)
  | modZero {d a b k x} : destCell s d = .ok k → resolve s a = .ok x → resolve s b = .ok 0 →
      Effect s (.mod d a b false) (.next (s.report .divisionByZero).advance)
  | cmp {a b x y} : resolve s a = .ok x → resolve s b = .ok y →
      Effect s (.cmp a b false) (.next (s.setFlags (compareFlags x y)).advance)
  | branch {i t cond x} : branchOf i = some (t, cond) → (∀ u, exec i u = branch cond t false u) →
      resolve s t = .ok x →
      Effect s i (.next (s.setPc (if cond s.flags then x else s.pc + 1)))
  | printValue {r x} : resolve s (refSrc r) = .ok x →
      Effect s (.intPrintValue r false) (.next (s.emit (.value x)).advance)
  | printText {ts} : Effect s (.intPrintText ts) (.next (s.emit (.text (join [' '] ts))).advance)
  | wait {d k} : destCell s d = .ok k → s.nextRecord = none →
      Effect s (.intInput d false) (.fault .waitingForInput)
  | badInput {d k r} : destCell s d = .ok k → s.nextRecord = some r → inputValue s.params r = none →
      Effect s (.intInput d false) (.next (s.consume.faultedBy .invalidInput s.line))
  | input {d k r v} : destCell s d = .ok k → s.nextRecord = some r → inputValue s.params r = some v →
      Effect s (.intInput d false) (.next (s.consume.writeCell k v).advance)
  | hlt : Effect s (.hlt false) (.next s.halt)
  | blankLine : Effect s .blankLine (.next s.advance)

/-- The inversion lemma of `exec`: the leftmost condition of the operands is raised, or there is none and the
instruction has its effect. -/
theorem exec_cases (i : Instr) (s : State) :
    (∃ c, leftmost (operandConditions s.params i) = some c ∧ exec i s = .next (s.faultedBy c s.line)) ∨
    (leftmost (operandConditions s.params i) = none ∧ Effect s i (exec i s)) := by
  have hbr : ∀ (cond : Flags → Bool) (t : Src) (sp : Bool), branchOf i = some (t, cond) →
      (∀ u, exec i u = branch cond t sp u) →
      operandConditions s.params i = [srcCondition s.params t, surplusCondition sp] →
      (∃ c, leftmost (operandConditions s.params i) = some c ∧ exec i s = .next (s.faultedBy c s.line)) ∨
      (leftmost (operandConditions s.params i) = none ∧ Effect s i (exec i s)) := by
    intro cond t sp hi he hc
    rw [hc]
    rcases branch_cases cond t sp s with ⟨c, h, h'⟩ | ⟨h, rfl, x, hx, h'⟩
    · exact .inl ⟨c, h, (he s).trans h'⟩
    · exact .inr ⟨h, by rw [he, h']; exact .branch hi he hx⟩
  cases i with
  | mov d a sp =>
    rcases execMov_cases d a sp s with h | ⟨h, rfl, k, x, hk, hx, h'⟩
    · exact .inl h
    · exact .inr ⟨h, h' ▸ .mov hk hx⟩
  | add d a b sp =>
    rcases arith_cases (fun x y => wrap s.params.xlen (x + y)) d a b sp s with h | ⟨h, rfl, k, x, y, hk, hx, hy, h'⟩
    · exact .inl h
    · exact .inr ⟨h, by rw [exec, execAdd, h']; exact .add hk hx hy⟩
  | sub d a b sp =>
    rcases arith_cases (fun x y => wrap s.params.xlen (x - y)) d a b sp s with h | ⟨h, rfl, k, x, y, hk, hx, hy, h'⟩
    · exact .inl h
    · exact .inr ⟨h, by rw [exec, execSub, h']; exact .sub hk hx hy⟩
  | mul d a b sp =>
    rcases arith_cases (fun x y => wrap s.params.xlen (x * y)) d a b sp s with h | ⟨h, rfl, k, x, y, hk, hx, hy, h'⟩
    · exact .inl h
    · exact .inr ⟨h, by rw [exec, execMul, h']; exact .mul hk hx hy⟩
  | div d a b sp =>
    rcases divide_cases (fun x y => wrap s.params.xlen (floorDiv x y)) d a b sp s with
      h | ⟨h, rfl, k, x, y, hk, hx, hy, ⟨rfl, h'⟩ | ⟨h0, h'⟩⟩
    · exact .inl h
    · exact .inr ⟨h, by rw [exec, execDiv, h']; exact .divZero hk hx hy⟩
    · exact .inr ⟨h, by rw [exec, execDiv, h']; exact .div hk hx hy h0⟩
  | mod d a b sp =>
    rcases divide_cases (fun x y => floorMod x y) d a b sp s with
      h | ⟨h, rfl, k, x, y, hk, hx, hy, ⟨rfl, h'⟩ | ⟨h0, h'⟩⟩
    · exact .inl h
    · exact .inr ⟨h, by rw [exec, execMod, h']; exact .modZero hk hx hy⟩
    · exact .inr ⟨h, by rw [exec, execMod, h']; exact .mod hk hx hy h0⟩
  | cmp a b sp =>
    rcases execCmp_cases a b sp s with h | ⟨h, rfl, x, y, hx, hy, h'⟩
    · exact .inl h
    · exact .inr ⟨h, h' ▸ .cmp hx hy⟩
  | jmp t sp => exact hbr _ t sp rfl (fun _ => rfl) rfl
  | jl t sp => exact hbr _ t sp rfl (fun _ => rfl) rfl
  | jg t sp => exact hbr _ t sp rfl (fun _ => rfl) rfl
  | jle t sp => exact hbr _ t sp rfl (fun _ => rfl) rfl
  | jge t sp => exact hbr _ t sp rfl (fun _ => rfl) rfl
  | je t sp => exact hbr _ t sp rfl (fun _ => rfl) rfl
  | jne t sp => exact hbr _ t sp rfl (fun _ => rfl) rfl
  | intPrintValue r sp =>
    rcases execIntPrintValue_cases r sp s with h | ⟨h, rfl, x, hx, h'⟩
    · exact .inl h
    · exact .inr ⟨h, h' ▸ .printValue hx⟩
  | intPrintText ts => exact .inr ⟨rfl, .printText⟩
  | intInput d sp =>
    rcases execIntInput_cases d sp s with h | ⟨h, rfl, k, hk, ⟨hr, h'⟩ | ⟨r, hr, ⟨hv, h'⟩ | ⟨v, hv, h'⟩⟩⟩
    · exact .inl h
    · exact .inr ⟨h, h' ▸ .wait hk hr⟩
    · exact .inr ⟨h, h' ▸ .badInput hk hr hv⟩
    · exact .inr ⟨h, h' ▸ .input hk hr hv⟩
  | hlt sp =>
    cases sp
    · exact .inr ⟨rfl, .hlt⟩
    · exact .inl ⟨_, rfl, rfl⟩
  | blankLine => exact .inr ⟨rfl, .blankLine⟩

/-! ### The step -/

/-- The inversion lemma of `step`: there is no step, or the decoded instruction runs, or the line is an
unknown instruction. -/
theorem step_cases (s : State) :
    (∃ f, s.noStep = some f ∧ step s = .fault f) ∨
    (∃ l, s.due l ∧ s.line = l ∧
      ((∃ i, decode l = .ok i ∧ step s = exec i s) ∨
        ∃ t, decode l = .error (.unknownInstruction t) ∧
          step s = .next (s.report .unknownInstruction).advance)) := by
  unfold step
  cases hn : s.noStep with
  | some f => exact .inl ⟨f, rfl, rfl⟩
  | none =>
    right
    have hdue : ∃ l, s.due l := by
      unfold State.noStep at hn
      split at hn
      · cases hn
      · cases hn
      · rename_i hrs
        cases hf : s.fetch with
        | none => simp [hf] at hn
        | some l => exact ⟨l, hrs, hf⟩
    obtain ⟨l, hl⟩ := hdue
    have hline := State.due_line hl
    refine ⟨l, hl, hline, ?_⟩
    rw [hline]
    cases hd : decode l with
    | ok i => exact .inl ⟨i, rfl, rfl⟩
    | error r => cases r with | unknownInstruction t => exact .inr ⟨t, rfl, rfl⟩

theorem step_of_decode {s : State} {l : Line} {i : Instr} (h : s.due l) (hd : decode l = .ok i) :
    step s = exec i s := by
  simp [step, State.due_noStep h, State.due_line h, hd]

theorem step_of_reject {s : State} {l : Line} {r : DecodeReject} (h : s.due l) (hd : decode l = .error r) :
    step s = .next (s.report .unknownInstruction).advance := by
  cases r
  simp [step, State.due_noStep h, State.due_line h, hd, rejected, recover_eq]

/-! ### The end of a run -/

theorem signal_of_outside {s : State} (hr : s.rs = .running) (hf : s.fetch = none) :
    s.signal = some .completed := by
  simp only [State.signal, hr, hf]

theorem step_of_outside {s : State} (hr : s.rs = .running) (hf : s.fetch = none) :
    step s = .fault .runCompleted := by
  simp only [step, State.noStep, hr, hf]

theorem step_of_halted {s : State} (hr : s.rs = .halted) : step s = .fault .runHalted := by
  simp only [step, State.noStep, hr]

theorem step_of_faulted {s : State} (hr : s.rs = .faulted) : step s = .fault .runFaulted := by
  simp only [step, State.noStep, hr]

/-- A next state comes from a step that is due. -/
theorem due_of_next {s t : State} (h : step s = .next t) : ∃ l, s.due l ∧ s.line = l ∧
    ((∃ i, decode l = .ok i ∧ exec i s = .next t) ∨
      ∃ u, decode l = .error (.unknownInstruction u) ∧ t = (s.report .unknownInstruction).advance) := by
  rcases step_cases s with ⟨f, -, hf⟩ | ⟨l, hd, hl, ⟨i, hi, he⟩ | ⟨u, hu, he⟩⟩
  · rw [hf] at h; cases h
  · exact ⟨l, hd, hl, .inl ⟨i, hi, he ▸ h⟩⟩
  · rw [he] at h; cases h; exact ⟨l, hd, hl, .inr ⟨u, hu, rfl⟩⟩

end Sys2Proof.Machine
end

