-- ==== Sys2Proof/Laws/Run.lean ====
section
/-! SUPPORT. The run: delivery of INPUT, the sequence of states, terminal states, and what one step of `run` can
do. -/

namespace Sys2Proof.Machine

namespace State

/-! ### Delivery -/

theorem feed_of_some {s : State} {inp : Input} {r : Line} (h : inp s.input.length = some r) :
    s.feed inp = s.deliver r := by
  simp [feed, h]

theorem feed_of_none {s : State} {inp : Input} (h : inp s.input.length = none) : s.feed inp = s := by
  simp [feed, h]

/-- What delivery can do: nothing, or one record behind those delivered. -/
theorem feed_cases (s : State) (inp : Input) :
    (inp s.input.length = none ∧ s.feed inp = s) ∨ ∃ r, inp s.input.length = some r ∧ s.feed inp = s.deliver r := by
  cases h : inp s.input.length with
  | none => exact .inl ⟨rfl, feed_of_none h⟩
  | some r => exact .inr ⟨r, rfl, feed_of_some h⟩

section
variable (s : State) (inp : Input)

/-- Delivery changes `INPUT` and nothing else. -/
theorem feed_eq : s.feed inp = { s with input := (s.feed inp).input } := by
  rcases feed_cases s inp with ⟨-, h⟩ | ⟨r, -, h⟩ <;> rw [h]; rfl

@[simp] theorem feed_params : (s.feed inp).params = s.params := by rw [feed_eq]
@[simp] theorem feed_mem : (s.feed inp).mem = s.mem := by rw [feed_eq]
@[simp] theorem feed_pc : (s.feed inp).pc = s.pc := by rw [feed_eq]
@[simp] theorem feed_flags : (s.feed inp).flags = s.flags := by rw [feed_eq]
@[simp] theorem feed_rs : (s.feed inp).rs = s.rs := by rw [feed_eq]
@[simp] theorem feed_fr : (s.feed inp).fr = s.fr := by rw [feed_eq]
@[simp] theorem feed_inpos : (s.feed inp).inpos = s.inpos := by rw [feed_eq]
@[simp] theorem feed_events : (s.feed inp).events = s.events := by rw [feed_eq]
@[simp] theorem feed_fetch : (s.feed inp).fetch = s.fetch := by rw [feed_eq]; rfl
@[simp] theorem feed_line : (s.feed inp).line = s.line := by rw [feed_eq]; rfl
@[simp] theorem feed_signal : (s.feed inp).signal = s.signal := by rw [feed_eq]; rfl
@[simp] theorem feed_terminal : (s.feed inp).terminal = s.terminal := by rw [feed_eq]; rfl

theorem feed_due (l : Line) : (s.feed inp).due l ↔ s.due l := by simp [due]

end

/-! ### The sequence of states -/

@[simp] theorem nth_zero (s : State) (inp : Input) : s.nth inp 0 = some s := rfl

theorem nth_succ_of_next {s t : State} {inp : Input} (h : stepOn inp s = .next t) (n : Nat) :
    s.nth inp (n + 1) = t.nth inp n := by
  simp [nth, h]

/-- A run with a further step takes one. -/
theorem nth_succ_cases {s u : State} {inp : Input} {n : Nat} (h : s.nth inp (n + 1) = some u) :
    ∃ t, stepOn inp s = .next t ∧ t.nth inp n = some u := by
  rw [nth] at h
  split at h
  · exact ⟨_, ‹_›, h⟩
  · cases h
  · cases h

theorem nth_succ_of_no_next {s : State} {inp : Input} (h : ∀ t, stepOn inp s ≠ .next t) (n : Nat) :
    s.nth inp (n + 1) = none := by
  cases hn : s.nth inp (n + 1) with
  | none => rfl
  | some u =>
    obtain ⟨t, ht, -⟩ := nth_succ_cases hn
    exact absurd ht (h t)

theorem nth_one (s t : State) (inp : Input) : s.nth inp 1 = some t ↔ stepOn inp s = .next t := by
  constructor
  · intro h
    obtain ⟨u, hu, h'⟩ := nth_succ_cases h
    cases h'
    exact hu
  · intro h; rw [nth_succ_of_next h, nth_zero]

/-- A run is continued by the run from any of its states. -/
theorem nth_add {s t : State} {inp : Input} {m : Nat} (h : s.nth inp m = some t) (n : Nat) :
    s.nth inp (m + n) = t.nth inp n := by
  induction m generalizing s with
  | zero => cases h; rw [Nat.zero_add]
  | succ m ih =>
    obtain ⟨u, hu, h'⟩ := nth_succ_cases h
    rw [Nat.add_right_comm, nth_succ_of_next hu, ih h']

/-- What holds at the start and is kept by every step of the run holds of every state of it. -/
theorem nth_induction {P : State → Prop} {inp : Input} (keep : ∀ u v, P u → stepOn inp u = .next v → P v)
    {s t : State} {n : Nat} (hs : P s) (h : s.nth inp n = some t) : P t := by
  induction n generalizing s with
  | zero => cases h; exact hs
  | succ n ih =>
    obtain ⟨u, hu, h'⟩ := nth_succ_cases h
    exact ih (keep _ _ hs hu) h'

/-- A run goes on for ever where something holds at the start that gives every state a step and is kept by it. -/
theorem runsForever_of {P : State → Prop} {inp : Input} (go : ∀ u, P u → ∃ v, stepOn inp u = .next v ∧ P v)
    {s : State} (hs : P s) : s.RunsForever inp := by
  intro n
  induction n generalizing s with
  | zero => exact ⟨s, rfl⟩
  | succ n ih =>
    obtain ⟨t, ht, hp⟩ := go s hs
    rw [nth_succ_of_next ht]
    exact ih hp

/-! ### Terminal states -/

theorem terminal_iff (s : State) :
    s.terminal = true ↔ s.rs ≠ .running ∨ s.pc < 0 ∨ (s.params.progLen : Int) ≤ s.pc := by
  simp [terminal, or_assoc]

theorem terminal_of_noStep {s : State} {f : Fault} (h : s.noStep = some f) : s.terminal = true := by
  rw [terminal_iff, ← fetch_eq_none]
  cases hr : s.rs with
  | halted => exact .inl (by simp)
  | faulted => exact .inl (by simp)
  | running =>
    cases hf : s.fetch with
    | none => exact .inr rfl
    | some l => rw [due_noStep ⟨hr, hf⟩] at h; cases h

theorem not_terminal_of_due {s : State} {l : Line} (h : s.due l) : s.terminal = false := by
  rw [← Bool.not_eq_true, terminal_iff, ← fetch_eq_none]
  simp [h.1, h.2]

end State

/-! ### Execution under fuel -/

theorem run_of_next {s t : State} {inp : Input} (h : stepOn inp s = .next t) (n : Nat) :
    run inp (n + 1) s = run inp n t := by
  rw [run, h]

theorem run_zero_of_next {s t : State} {inp : Input} (h : stepOn inp s = .next t) :
    run inp 0 s = .outOfFuel s := by
  rw [run, h]

theorem run_of_waiting {s : State} {inp : Input} (h : stepOn inp s = .fault .waitingForInput) (n : Nat) :
    run inp n s = .waiting s := by
  rw [run.eq_def, h]

/-- No step exists from a terminal state, whatever `INPUT` holds, and `run` says that the run has ended. -/
theorem run_of_terminal {s : State} (h : s.terminal = true) (inp : Input) (n : Nat) :
    (∀ t, stepOn inp s ≠ .next t) ∧ stepOn inp s ≠ .fault .waitingForInput ∧ run inp n s = .ended s := by
  have ht : (s.feed inp).terminal = true := (State.feed_terminal s inp).trans h
  rw [State.terminal_iff, ← State.fetch_eq_none] at ht
  have : stepOn inp s = .fault .runHalted ∨ stepOn inp s = .fault .runFaulted ∨
      stepOn inp s = .fault .runCompleted := by
    cases hr : (s.feed inp).rs with
    | halted => exact .inl (step_of_halted hr)
    | faulted => exact .inr (.inl (step_of_faulted hr))
    | running => exact .inr (.inr (step_of_outside hr (ht.resolve_left (fun hn => hn hr))))
  rcases this with h | h | h <;> rw [run.eq_def, h] <;> simp

end Sys2Proof.Machine
end

