-- ==== Sys2Proof/Tests/Slice0.lean ====
section
/-! SUPPORT. Tests. Expected results are the spec's: its encoding tables (30_encoding.md R66, the byte tables
of 95_test_vectors.md) and its vectors (95_test_vectors.md, part 2, from the start state named there). The
theorems `witness_<Obligation>` show states and operands that meet the hypotheses of that obligation. -/

namespace Sys2Proof.Tests

open Sys2Proof.Machine

/-- A line from its bytes. -/
def bytes (l : List Nat) : Line := l.map Char.ofNat

/-- The next state of an outcome. -/
def nextOf : Res → Option State
  | .next t => some t
  | .fault _ => none
  | .refused _ => none

/-- The fault of an outcome. -/
def faultOf : Res → Option Fault
  | .next _ => none
  | .fault f => some f
  | .refused _ => none

/-- The start state of 95_test_vectors.md part 2 with the one line `l`: ten cells, `M[2] = 8`,
`M[9] = -3`. -/
def start (l : String) : State :=
  { State.construct { Params.default with program := [l.toList] } [] with mem := [(2, 8), (9, -3)] }

/-- The same with input records. -/
def startIn (l : String) (records : List String) : State :=
  { start l with input := records.map String.toList }

/-- The start state of section 2.5: the line stands at index 4 of ten, with the given flags. -/
def startAt4 (l : String) (f : Flags) : State :=
  { start l with
    params := { Params.default with program := [[], [], [], [], l.toList, [], [], [], [], []] }
    pc := 4
    flags := f }

/-- What a step leaves: `pc`, `RS`, and the cell `j`. -/
def after (j : Nat) (s : State) : Option (Int × RunState × Int) :=
  (nextOf (step s)).map fun t => (t.pc, t.rs, t.mem.read j)

/-- What a fatal step leaves: the fault record, `pc`, `INPOS`, and whether Memory and the channels are as
before. -/
def fatal (s : State) : Option (Option FaultRecord × Int × Nat × Bool) :=
  (nextOf (step s)).map fun t => (t.fr, t.pc, t.inpos, decide (t.mem = s.mem ∧ t.events = s.events))

/-- `L`, `E` and `G` (R23). -/
def flagL : Flags := ⟨true, false⟩
def flagE : Flags := ⟨false, true⟩
def flagG : Flags := ⟨false, false⟩

/-! ### Decoding: one line per constructor, written out in bytes -/

theorem test_decode_mov : decode (bytes [0x4D, 0x4F, 0x56, 0x20, 0x5B, 0x30, 0x5D, 0x2C, 0x20, 0x35]) =
    .ok (.mov (.cell 0) (.imm 5) false) := by decide
theorem test_decode_add : decode (bytes [0x41, 0x44, 0x44, 0x20, 0x5B, 0x32, 0x5D, 0x2C, 0x20, 0x5B, 0x30, 0x5D,
    0x2C, 0x20, 0x5B, 0x31, 0x5D]) = .ok (.add (.cell 2) (.cell 0) (.cell 1) false) := by decide
theorem test_decode_sub : decode (bytes [0x53, 0x55, 0x42, 0x20, 0x5B, 0x30, 0x5D, 0x2C, 0x20, 0x5B, 0x30, 0x5D,
    0x2C, 0x20, 0x31]) = .ok (.sub (.cell 0) (.cell 0) (.imm 1) false) := by decide
theorem test_decode_mul : decode (bytes [0x4D, 0x55, 0x4C, 0x20, 0x5B, 0x30, 0x5D, 0x2C, 0x20, 0x2D, 0x33, 0x2C,
    0x20, 0x34]) = .ok (.mul (.cell 0) (.imm (-3)) (.imm 4) false) := by decide
theorem test_decode_div : decode (bytes [0x44, 0x49, 0x56, 0x20, 0x5B, 0x30, 0x5D, 0x2C, 0x20, 0x2D, 0x37, 0x2C,
    0x20, 0x32]) = .ok (.div (.cell 0) (.imm (-7)) (.imm 2) false) := by decide
theorem test_decode_mod : decode (bytes [0x4D, 0x4F, 0x44, 0x20, 0x5B, 0x31, 0x5D, 0x2C, 0x20, 0x2D, 0x37, 0x2C,
    0x20, 0x32]) = .ok (.mod (.cell 1) (.imm (-7)) (.imm 2) false) := by decide
theorem test_decode_cmp : decode (bytes [0x43, 0x4D, 0x50, 0x20, 0x5B, 0x32, 0x5D, 0x2C, 0x20, 0x38]) =
    .ok (.cmp (.cell 2) (.imm 8) false) := by decide
theorem test_decode_jmp : decode (bytes [0x4A, 0x4D, 0x50, 0x20, 0x5B, 0x33, 0x5D]) =
    .ok (.jmp (.cell 3) false) := by decide
theorem test_decode_jl : decode (bytes [0x4A, 0x4C, 0x20, 0x39]) = .ok (.jl (.imm 9) false) := by decide
theorem test_decode_jg : decode (bytes [0x4A, 0x47, 0x20, 0x32]) = .ok (.jg (.imm 2) false) := by decide
theorem test_decode_jle : decode (bytes [0x4A, 0x4C, 0x45, 0x20, 0x39]) = .ok (.jle (.imm 9) false) := by decide
theorem test_decode_jge : decode (bytes [0x4A, 0x47, 0x45, 0x20, 0x36]) = .ok (.jge (.imm 6) false) := by decide
theorem test_decode_je : decode (bytes [0x4A, 0x45, 0x20, 0x36]) = .ok (.je (.imm 6) false) := by decide
theorem test_decode_jne : decode (bytes [0x4A, 0x4E, 0x45, 0x20, 0x31]) = .ok (.jne (.imm 1) false) := by decide
theorem test_decode_print_value : decode (bytes [0x49, 0x4E, 0x54, 0x20, 0x50, 0x52, 0x49, 0x4E, 0x54, 0x20, 0x5B,
    0x31, 0x5D]) = .ok (.intPrintValue (.cell 1) false) := by decide
theorem test_decode_print_text : decode (bytes [0x49, 0x4E, 0x54, 0x20, 0x50, 0x52, 0x49, 0x4E, 0x54, 0x20, 0x77,
    0x72, 0x6F, 0x6E, 0x67]) = .ok (.intPrintText [bytes [0x77, 0x72, 0x6F, 0x6E, 0x67]]) := by decide
theorem test_decode_input : decode (bytes [0x49, 0x4E, 0x54, 0x20, 0x49, 0x4E, 0x50, 0x55, 0x54, 0x20, 0x5B, 0x30,
    0x5D]) = .ok (.intInput (.cell 0) false) := by decide
theorem test_decode_hlt : decode (bytes [0x48, 0x4C, 0x54]) = .ok (.hlt false) := by decide
theorem test_decode_blank : decode [] = .ok .blankLine ∧ decode (bytes [0x20, 0x20, 0x20, 0x09, 0x20]) = .ok .blankLine :=
  by decide

/-- Section 2.1: spacing, tab, CR and LF; the comma is optional; `[0],[2]` is one bracketed token. -/
theorem test_decode_spacing :
    decode (bytes [0x20, 0x20, 0x4D, 0x4F, 0x56, 0x09, 0x5B, 0x30, 0x5D, 0x2C, 0x20, 0x20, 0x20, 0x5B, 0x32, 0x5D, 0x20,
      0x20, 0x0D, 0x0A]) = .ok (.mov (.cell 0) (.cell 2) false) ∧
    decode "MOV [0] [2]".toList = .ok (.mov (.cell 0) (.cell 2) false) ∧
    decode "MOV [0],[2]".toList = .ok (.mov .invalid .malformed false) := by decide

/-- Section 2.1: integer literals. -/
theorem test_decode_literals :
    ["[007]", "[+2]", "5,", "5,,", "+5", "-0", "0x10", "5.0", "--5", "abc", "[]", "[[2]]", "[-1]"].map
      (fun t => decodeSrc (some t.toList)) =
    [.cell 7, .cell 2, .imm 5, .malformed, .imm 5, .imm 0, .malformed, .malformed, .malformed, .malformed,
      .malformed, .malformed, .cell (-1)] := by decide

/-- Sections 2.1, 2.5, 2.6, 2.7: lines whose first token is no mnemonic. -/
theorem test_decode_unknown :
    (["mov [0], 5", "MOV, [0], 5", "JLEX 3", "JZ 3", "JL, 3", "int PRINT [2]", "hlt", "HALT", "NOP", "loop:", "; note",
      "OBJ 1 2 3"].all fun l => (decode l.toList).toOption.isNone) = true := by decide

/-- Section 2.6: the forms of INT. -/
theorem test_decode_int_forms :
    decode "INT".toList = .ok (.intInput .invalid false) ∧
    decode "INT INPUT".toList = .ok (.intInput .invalid false) ∧
    decode "INT [9] [0]".toList = .ok (.intInput (.cell 0) false) ∧
    decode "INT PRINT".toList = .ok (.intPrintText []) ∧
    decode "INT print [2],".toList = .ok (.intPrintValue (.cell 2) false) ∧
    decode "INT PRINT [2] cells".toList = .ok (.intPrintValue (.cell 2) true) ∧
    decode "INT PRINT total [2]".toList = .ok (.intPrintText ["total".toList, "[2]".toList]) := by decide

/-- Words of spec/opcode_table.json. -/
theorem test_table_words :
    decodeTableWord 24 0x4D4F56 = some (.mov .invalid .malformed false) ∧
    decodeTableWord 16 0x4A4C = some (.jl .malformed false) ∧
    decodeTableWord 24 0x4A4C45 = some (.jle .malformed false) ∧
    decodeTableWord 24 0x494E54 = some (.intInput .invalid false) ∧
    decodeTableWord 0 0 = some .blankLine ∧
    decodeTableWord 24 0x4E4F50 = none := by decide

theorem test_fetch_word :
    nextOf (step (State.reset.withFetchWord 24 0x484C54)) =
      nextOf (execHlt false (State.reset.withFetchWord 24 0x484C54)) ∧
    ((nextOf (step (State.reset.withFetchWord 24 0x484C54))).map fun t => (t.pc, t.rs)) = some (-1, .halted) := by
  decide

/-! ### Well-formedness: each check refuses an ill-formed term -/

theorem test_wf_accepts :
    (Instr.mov (.cell 0) (.cell 2) false).wf = true ∧ (Instr.jmp (.imm (-1)) false).wf = true ∧
    (Instr.intPrintText ["total".toList, "[2]".toList]).wf = true ∧ Instr.blankLine.wf = true := by decide
theorem test_wf_refuses_negative_source : (Instr.jmp (.cell (-1)) false).wf = false := by decide
theorem test_wf_refuses_malformed_source : (Instr.cmp (.imm 1) .malformed false).wf = false := by decide
theorem test_wf_refuses_negative_ref : (Instr.intPrintValue (.cell (-1)) false).wf = false := by decide
theorem test_wf_refuses_malformed_ref : (Instr.intPrintValue .malformed false).wf = false := by decide
theorem test_wf_refuses_negative_dest : (Instr.mov (.cell (-1)) (.imm 5) false).wf = false := by decide
theorem test_wf_refuses_invalid_dest : (Instr.intInput .invalid false).wf = false := by decide
theorem test_wf_refuses_surplus : (Instr.hlt true).wf = false ∧ (Instr.add (.cell 0) (.imm 1) (.imm 2) true).wf = false := by
  decide
theorem test_wf_refuses_empty_token : (Instr.intPrintText ["a".toList, []]).wf = false := by decide
theorem test_wf_refuses_space_in_token : (Instr.intPrintText ["a b".toList]).wf = false := by decide
theorem test_wf_refuses_bracketed_first_token : (Instr.intPrintText ["[2],".toList]).wf = false := by decide

/-! ### One step of each instruction -/

theorem test_reset : State.reset.pc = 0 ∧ State.reset.mem.wf = true ∧ State.reset.mem.read 9 = 0 ∧
    State.reset.rs = .running ∧ State.reset.flags = flagG ∧ State.reset.fr = none ∧ State.reset.events = [] ∧
    State.reset.signal = some .completed := by decide

theorem test_mov : after 0 (start "MOV [0], [9]") = some (1, .running, -3) := by decide
theorem test_mov_dest_out_of_bounds : fatal (start "MOV [10], 5") =
    some (some ⟨.invalidDestination, 0, "MOV [10], 5".toList⟩, 0, 0, true) := by decide
theorem test_add_wraps : after 0 (start "ADD [0], 9223372036854775807, 1") =
    some (1, .running, -9223372036854775808) := by decide
theorem test_add_same_cell : after 2 (start "ADD [2], [2], [2]") = some (1, .running, 16) := by decide
theorem test_sub_order : after 0 (start "SUB [0], 3, 10") = some (1, .running, -7) := by decide
theorem test_sub_missing : fatal (start "SUB [0], 1") =
    some (some ⟨.malformedOperand, 0, "SUB [0], 1".toList⟩, 0, 0, true) := by decide
theorem test_mul_wraps : after 0 (start "MUL [0], 3037000500, 3037000500") =
    some (1, .running, -9223372036709301616) := by decide
theorem test_mul_sign : after 0 (start "MUL [0], -3, 4") = some (1, .running, -12) := by decide
theorem test_div_floors : after 0 (start "DIV [0], -7, 2") = some (1, .running, -4) := by decide
theorem test_div_by_zero :
    ((nextOf (step (start "DIV [2], 7, 0"))).map fun t => (t.pc, t.mem.read 2, t.rep)) =
      some (1, 8, [⟨.divisionByZero, 0, "DIV [2], 7, 0".toList⟩]) := by decide
theorem test_mod_floors : after 0 (start "MOD [0], 7, -2") = some (1, .running, -1) := by decide
theorem test_mod_by_zero :
    ((nextOf (step (start "MOD [0], 7, 0"))).map fun t => (t.pc, t.mem.read 0, t.rep)) =
      some (1, 0, [⟨.divisionByZero, 0, "MOD [0], 7, 0".toList⟩]) := by decide
theorem test_cmp :
    (["CMP 3, 5", "CMP 5, 3", "CMP [2], 8"].map fun l => (nextOf (step (start l))).map State.flags) =
      [some flagL, some flagG, some flagE] := by decide
theorem test_cmp_fault_keeps_flags :
    ((nextOf (step (startAt4 "CMP [10], x" flagL))).map fun t => (t.flags, t.pc, t.fr.map FaultRecord.reason)) =
      some (flagL, 4, some .outOfBoundsAddress) := by decide
/-- The table of section 2.5. -/
theorem test_branch_table :
    (["JMP 9", "JL 9", "JG 9", "JLE 9", "JGE 9", "JE 9", "JNE 9"].map fun l =>
      [flagL, flagE, flagG].map fun f => (nextOf (step (startAt4 l f))).map State.pc) =
    [[some 9, some 9, some 9], [some 9, some 5, some 5], [some 5, some 5, some 9], [some 9, some 9, some 5],
      [some 5, some 9, some 9], [some 5, some 9, some 5], [some 9, some 5, some 9]] := by decide
theorem test_branch_not_taken_faults : fatal (startAt4 "JE [1000]" flagL) =
    some (some ⟨.outOfBoundsAddress, 4, "JE [1000]".toList⟩, 4, 0, true) := by decide
theorem test_branch_indirect_out :
    ((nextOf (step (startAt4 "JMP [9]" flagL))).map fun t => (t.pc, t.rs, t.signal)) =
      some (-3, .running, some .completed) := by decide
theorem test_print_value : ((nextOf (step (start "INT PRINT [2]"))).map fun t => (t.out, t.pc)) =
    some ([.value 8], 1) := by decide
theorem test_print_value_surplus : fatal (start "INT PRINT [2] cells") =
    some (some ⟨.malformedOperand, 0, "INT PRINT [2] cells".toList⟩, 0, 0, true) := by decide
theorem test_print_text : ((nextOf (step (start "INT Print hello,   world"))).map State.out) =
    some [.text "hello, world".toList] := by decide
theorem test_print_empty : ((nextOf (step (start "INT PRINT"))).map State.out) = some [.text []] := by decide
theorem test_input : ((nextOf (step (startIn "INT [9] [0]" [" -7 \n"]))).map fun t =>
    (t.mem.read 0, t.inpos, t.pc)) = some (-7, 1, 1) := by decide
theorem test_input_invalid : fatal (startIn "INT INPUT [0]" ["9223372036854775808"]) =
    some (some ⟨.invalidInput, 0, "INT INPUT [0]".toList⟩, 0, 1, true) := by decide
theorem test_input_waits : faultOf (step (start "INT INPUT [0]")) = some .waitingForInput := by decide
theorem test_hlt : ((nextOf (step (start "  HLT  "))).map fun t => (t.pc, t.rs, t.signal)) =
    some (-1, .halted, some .halted) := by decide
theorem test_hlt_surplus : fatal (start "HLT now") =
    some (some ⟨.malformedOperand, 0, "HLT now".toList⟩, 0, 0, true) := by decide
theorem test_blank : after 2 (start "") = some (1, .running, 8) := by decide
theorem test_unknown : ((nextOf (step (start "OBJ 1 2 3"))).map fun t => (t.pc, t.rs, t.rep)) =
    some (1, .running, [⟨.unknownInstruction, 0, "OBJ 1 2 3".toList⟩]) := by decide

/-- The numbers of 60_exceptions.md section 2. -/
theorem test_codes : Recoverable.divisionByZero.code = 1 ∧ Recoverable.unknownInstruction.code = 2 ∧
    Fatal.outOfBoundsAddress.code = 3 ∧ Fatal.malformedOperand.code = 4 ∧ Fatal.invalidDestination.code = 5 ∧
    Fatal.invalidInput.code = 6 ∧ Signal.completed.code = 0 ∧ Signal.halted.code = 1 ∧
    (Signal.faulted .invalidInput).code = 2 := by decide
theorem test_condition_port :
    conditionPort none = 0 ∧ conditionPort (some (.recoverable .divisionByZero)) = 1 ∧
    conditionPort (some (.fatal .invalidInput)) = 6 ∧ Signal.completed.conditionCode = 0 ∧
    Signal.halted.conditionCode = 0 ∧ (Signal.faulted .outOfBoundsAddress).conditionCode = 3 := by decide

/-! ### Runs (95_test_vectors.md sections 1.1 and 2.8) -/

/-- No record. -/
def noInput : Input := Input.ofList []

/-- `JMP 0` at line 0 has no signal, however much fuel there is. -/
theorem test_run_endless : (run noInput 3 (start "JMP 0")).signal = none ∧
    run noInput 0 (start "JMP 0") = .outOfFuel (start "JMP 0") := by decide
theorem test_run_completed : (run noInput 0 State.reset).signal = some .completed ∧
    (run noInput 1 (start "MOV [0], 1")).signal = some .completed ∧
    (run noInput 0 (start "MOV [0], 1")).signal = none := by decide
theorem test_run_halted_and_faulted : (run noInput 1 (start "HLT")).signal = some .halted ∧
    (run noInput 1 (start "HLT now")).signal = some (.faulted .malformedOperand) := by decide
theorem test_run_waits : run noInput 5 (start "INT INPUT [0]") = .waiting (start "INT INPUT [0]") := by decide

/-- A line that reads, and a line that goes back to it. -/
def readLoop : State :=
  State.construct { Params.default with program := ["INT INPUT [0]".toList, "JMP 0".toList] } []

/-- On one record the loop waits for the second. -/
theorem test_read_loop_waits : run (Input.ofList ["7".toList]) 9 readLoop =
    .waiting { readLoop with mem := [(0, 7)], input := ["7".toList], inpos := 1 } := by decide

/-! ### Witnesses of the obligations' hypotheses -/

theorem witness_TrimRemovesOuterWhitespace : ∀ c ∈ bytes [0x20, 0x09, 0x0D], isSpace c = true :=
  List.all_eq_true.1 (by decide)
theorem witness_TokensAreTheMaximalRuns :
    isSpace ' ' = true ∧ "HLT".toList ≠ [] ∧ (∀ c ∈ "HLT".toList, isSpace c = false) ∧
    (∀ c, " now".toList.head? = some c → isSpace c = true) ∧ "HLT".toList ∈ tokens "HLT now".toList :=
  ⟨by decide, by decide, by simp [isSpace], fun c h => by cases h; decide, by decide⟩
theorem witness_StripTakesOneTrailingComma : "5".toList.getLast? ≠ some ',' ∧ ([] : Token).getLast? ≠ some ',' := by
  decide
theorem witness_UpperAndJoinWork : (0 < 26 ∧ 25 < 26) ∧ (Char.ofNat 96).toNat < 97 ∧ 122 < (Char.ofNat 123).toNat := by
  decide
theorem witness_FieldsAreTokensByPosition :
    (["MOV", "ADD", "SUB", "MUL", "DIV", "MOD", "CMP", "JMP", "JL", "JG", "JLE", "JGE", "JE", "JNE", "HLT"].all fun m =>
      decide (tokens m.toList = m.toList :: []) &&
      decide (tokens (m ++ " [0], 1, 2 3").toList =
        m.toList :: ["[0],".toList, "1,".toList, "2".toList, "3".toList])) = true := by decide
theorem witness_IntFormIsChosenByKeyword :
    tokens "INT".toList = ["INT".toList] ∧
    (tokens "INT print".toList = ["INT".toList, "print".toList] ∧ upper "print".toList = "PRINT".toList) ∧
    (tokens "INT PRINT [2], x".toList = "INT".toList :: "PRINT".toList :: "[2],".toList :: ["x".toList] ∧
      upper "PRINT".toList = "PRINT".toList ∧ isBracketed (strip "[2],".toList) = true) ∧
    (tokens "INT PRINT 5".toList = "INT".toList :: "PRINT".toList :: "5".toList :: [] ∧
      isBracketed (strip "5".toList) = false) ∧
    (tokens "INT INPUT [0]".toList = "INT".toList :: "INPUT".toList :: ["[0]".toList] ∧
      upper "INPUT".toList ≠ "PRINT".toList) := by decide
theorem witness_UnknownLineIsReportedAndSkipped :
    (start "NOP").due "NOP".toList ∧ decode "NOP".toList = .error (.unknownInstruction "NOP".toList) :=
  ⟨⟨rfl, rfl⟩, by decide⟩
theorem witness_BlankLineOnlyAdvances : (start " ").due " ".toList ∧ trim " ".toList = [] := ⟨⟨rfl, rfl⟩, by decide⟩
theorem witness_DecodeDependsOnTokensOnly : tokens "HLT".toList = tokens " HLT  ".toList := by decide
theorem witness_DecodeUndoesEncode : (Instr.add (.cell 0) (.imm (-1)) (.cell 9) false).wf = true ∧
    (Instr.intPrintText []).wf = true := by decide
theorem witness_EncodeOfDecodedLineDecodesTheSame :
    decode "MOV 5, x y".toList = .ok (.mov .invalid .malformed true) := by decide
theorem witness_FetchWordIsWhatRunsNext :
    decodeTableWord 24 0x484C54 = some (.hlt false) ∧ (start "HLT").fetch ≠ none ∧ State.reset.fetch = none := by decide
theorem witness_ResolveReadsSourceTokens :
    (isBracketed (strip "[x]".toList) = true ∧ parseInt (inner (strip "[x]".toList)) = none) ∧
    (["[-1]", "[0]", "[9]", "[10]"].map fun t => parseInt (inner (strip t.toList))) =
      [some (-1), some 0, some 9, some 10] ∧ (start "").params.memSize = 10 ∧
    (isBracketed (strip "x".toList) = false ∧ parseInt (strip "x".toList) = none) ∧
    (["-9223372036854775809", "-9223372036854775808", "9223372036854775807", "9223372036854775808"].map fun t =>
      ((parseInt (strip t.toList)).map (inRange (start "").params.xlen))) =
      [some false, some true, some true, some false] := by decide
theorem witness_DestReadsDestinationTokens :
    isBracketed (strip "5".toList) = false ∧ isBracketed (strip "[9],".toList) = true ∧
    (["[x]", "[-1]", "[0]", "[9]", "[10]"].map fun t => parseInt (inner (strip t.toList))) =
      [none, some (-1), some 0, some 9, some 10] ∧ State.reset.params.memSize = 10 := by decide
theorem witness_IndexIsNeverReduced : State.reset.params.memSize ≤ 2 ^ 64 := by decide
theorem witness_OperandsAreReadBeforeTheWrite :
    ((start "").mem.wf = true ∧ destCell (start "") (.cell 2) = .ok 2 ∧ (start "").mem.read 2 = 8) ∧
    (let s := { start "" with mem := [(0, 4)] }
     s.params.xlen = .bits 64 ∧ 1 ≤ s.params.memSize ∧ s.mem.wf = true ∧ s.mem.read 0 = 4) := by decide
theorem witness_LeftmostConditionIsRaised :
    leftmost (operandConditions Params.default (.div .invalid (.cell 10) (.imm 0) true)) = some .invalidDestination ∧
    leftmost (operandConditions Params.default (.add (.cell 9) (.cell 10) .malformed false)) = some .outOfBoundsAddress ∧
    leftmost (operandConditions Params.default (.add (.cell 0) (.imm 1) (.imm 2) true)) = some .malformedOperand ∧
    leftmost (operandConditions Params.default (.cmp (.cell 9) (.imm 2) false)) = none := by decide
theorem witness_StepFaultsExactlyOnDefects :
    (start "HLT").due "HLT".toList ∧ decode "HLT".toList = .ok (.hlt false) := ⟨⟨rfl, rfl⟩, by decide⟩
theorem witness_WrapIsTheMachineInteger : 1 ≤ 1 ∧ inRange (.bits 1) (-1) = true ∧ -1 = 1 + (-1) * 2 ^ 1 := by decide
theorem witness_FloorQuotientAndRemainder : (1 : Int) ≠ 0 ∧ (0 : Int) < 1 ∧ (-1 : Int) < 0 ∧
    inRange (.bits 64) (-9223372036854775808) = true ∧ inRange (.bits 64) (-1) = true := by decide
theorem witness_ReadGivesMostRecentWrite : Memory.wf [(2, 8), (9, -3)] = true ∧ 3 ≠ 2 := by decide
theorem witness_EqualContentsAreEqualMemories : Memory.wf [(2, 8)] = true ∧
    ∀ i, Memory.read [(2, 8)] i = Memory.read [(2, 8)] i := ⟨by decide, fun _ => rfl⟩
theorem witness_MovCopiesAValue :
    (destCell (start "") (.cell 9) = .ok 9 ∧ resolve (start "") (.cell 2) = .ok 8 ∧ (start "").mem.wf = true) ∧
    destCell (start "") (.cell 10) = .error .invalidDestination ∧
    (destCell (start "") (.cell 0) = .ok 0 ∧ resolve (start "") (.cell 10) = .error .outOfBoundsAddress) ∧
    (1 ≤ Params.default.memSize ∧ inRange Params.default.xlen 5 = true) := by decide
theorem witness_AddSubMulStoreTheWrappedResult :
    (destCell (start "") (.cell 0) = .ok 0 ∧ resolve (start "") (.cell 2) = .ok 8 ∧
      resolve (start "") (.imm 9223372036854775807) = .ok 9223372036854775807) ∧
    leftmost [dstCondition Params.default (.cell 0), srcCondition Params.default (.imm 1),
      srcCondition Params.default .malformed, surplusCondition false] = some .malformedOperand := by decide
theorem witness_DivModStoreFloorResults :
    (destCell (start "") (.cell 0) = .ok 0 ∧ resolve (start "") (.cell 2) = .ok 8 ∧
      resolve (start "") (.imm (-1)) = .ok (-1) ∧ (-1 : Int) ≠ 0) ∧
    leftmost [dstCondition Params.default (.cell 1000), srcCondition Params.default (.imm 5),
      srcCondition Params.default (.imm 0), surplusCondition false] = some .invalidDestination := by decide
theorem witness_DivisionByZeroIsReportedAndSkipped :
    (destCell (start "") (.cell 2) = .ok 2 ∧ resolve (start "") (.imm 7) = .ok 7 ∧
      resolve (start "") (.cell 5) = .ok 0) ∧
    (start "DIV [2], 7, 0").due "DIV [2], 7, 0".toList ∧
    exec (.div (.cell 2) (.imm 7) (.imm 0) false) (start "DIV [2], 7, 0") =
      .next ((start "DIV [2], 7, 0").report .divisionByZero).advance :=
  ⟨by decide, ⟨rfl, rfl⟩, rfl⟩
theorem witness_ArithmeticCornerCases : (start "").params.xlen = .bits 64 ∧ (0 : Int) ≤ 9 ∧
    9 < ((start "").params.memSize : Int) := by decide
theorem witness_CmpSetsBothFlags :
    (resolve (start "") (.imm 3) = .ok 3 ∧ resolve (start "") (.imm 5) = .ok 5) ∧
    resolve (start "") (.cell 10) = .error .outOfBoundsAddress ∧ resolve (start "") .malformed = .error .malformedOperand ∧
    (start "").params.xlen = .bits 64 ∧ 3 ≤ (start "").params.memSize ∧ (start "").mem.read 2 = 8 := by decide
theorem witness_BranchDecidesByLastCmp :
    ∃ t u, resolve (start "") (.imm 3) = .ok 3 ∧ resolve (start "") (.imm 5) = .ok 5 ∧
      exec (.cmp (.imm 3) (.imm 5) false) { start "" with params := { Params.default with program := [[], []] } } = .next t ∧
      RunWithoutCmp t u ∧ t.pc = 1 ∧ u.pc = 2 ∧ resolve u (.imm 9) = .ok 9 :=
  ⟨_, _, by decide, by decide, rfl,
    .step (l := []) ⟨rfl, rfl⟩ (fun _ _ _ h => by cases h) rfl (.refl _), rfl, rfl, by decide⟩
theorem witness_BranchesLoadTargetOrAdvance : resolve (start "") (.cell 9) = .ok (-3) := by decide
theorem witness_JumpOutOfTheProgramCompletes :
    (start "JMP [9]").due "JMP [9]".toList ∧ decode "JMP [9]".toList = .ok (.jmp (.cell 9) false) ∧
    resolve (start "JMP [9]") (.cell 9) = .ok (-3) ∧ (start "JMP [9]").params.progLen = 1 ∧
    (start "JMP 1").due "JMP 1".toList ∧ decode "JMP 1".toList = .ok (.jmp (.imm 1) false) ∧
    resolve (start "JMP 1") (.imm 1) = .ok 1 :=
  ⟨⟨rfl, rfl⟩, by decide, by decide, by decide, ⟨rfl, rfl⟩, by decide, by decide⟩
theorem witness_PrintValueEmitsTheCell :
    ((0 : Int) ≤ 9 ∧ 9 < ((start "").params.memSize : Int)) ∧ ((start "").params.memSize : Int) ≤ 10 ∧
    (upper "print".toList = "PRINT".toList ∧ isBracketed (strip "[2],".toList) = true) ∧
    3 ≤ (start "").params.memSize ∧ (start "").mem.read 2 = 8 := by decide
theorem witness_PrintTextEmitsTheTokens :
    (start "INT PRINT   hello,   world").due "INT PRINT   hello,   world".toList := ⟨rfl, rfl⟩
theorem witness_InputStoresTheRecord :
    let s := startIn "INT INPUT [0]" ["9223372036854775807\n"]
    (destCell s (.cell 0) = .ok 0 ∧ s.nextRecord = some "9223372036854775807\n".toList ∧
      parseInt (trim "9223372036854775807\n".toList) = some 9223372036854775807 ∧
      inRange s.params.xlen 9223372036854775807 = true) ∧
    leftmost [dstCondition s.params (.cell 10), surplusCondition false] = some .invalidDestination := by decide
theorem witness_InvalidInputIsConsumed :
    let s := startIn "INT INPUT [0]" ["", "9223372036854775808"]
    destCell s (.cell 0) = .ok 0 ∧ s.nextRecord = some [] ∧ parseInt (trim []) = none ∧
    s.consume.nextRecord = some "9223372036854775808".toList ∧
    parseInt (trim "9223372036854775808".toList) = some 9223372036854775808 ∧
    inRange s.params.xlen 9223372036854775808 = false := by decide
theorem witness_InputWaitsForARecord :
    (start "INT INPUT [9]").waits ∧ (start "INT INPUT [9]").inpos = (start "INT INPUT [9]").input.length :=
  ⟨⟨_, _, _, ⟨rfl, rfl⟩, (by decide : decode "INT INPUT [9]".toList = .ok (.intInput (.cell 9) false)), rfl, rfl⟩, rfl⟩
theorem witness_StepRunsTheDecodedLine :
    (start "HLT").rs = .running ∧ 0 ≤ (start "HLT").pc ∧
    (start "HLT").params.program[(start "HLT").pc.toNat]? = some "HLT".toList ∧
    decode "HLT".toList = .ok (.hlt false) := by decide
theorem witness_StepExistsExactlyWhen :
    ¬ (State.reset.rs = .running ∧ 0 ≤ State.reset.pc ∧ State.reset.pc < (State.reset.params.progLen : Int)) := by decide
theorem witness_EndedRunHasNoStep : (start "HLT").halt.rs = .halted ∧
    ((start "HLT").faultedBy .malformedOperand []).rs = .faulted ∧ State.reset.signal = some .completed := by decide
theorem witness_PcIsWrittenOnceAsListed :
    (start "HLT").due "HLT".toList ∧ step (start "HLT") = .next (start "HLT").halt := ⟨⟨rfl, rfl⟩, rfl⟩
theorem witness_OnlyCmpWritesAndBranchesReadFlags :
    branchOf (.hlt false) = none ∧ (∀ a b, Instr.hlt false ≠ .cmp a b false) ∧
    exec (.hlt false) (start "HLT") = .next (start "HLT").halt ∧
    resolve (start "") (.imm 3) = .ok 3 ∧
    exec (.cmp (.imm 3) (.imm 3) false) (start "") = .next ((start "").setFlags flagE).advance ∧
    (start "NOP").due "NOP".toList ∧ decode "NOP".toList = .error (.unknownInstruction "NOP".toList) :=
  ⟨rfl, fun _ _ => by simp, rfl, by decide, rfl, ⟨rfl, rfl⟩, by decide⟩
theorem witness_RunStateChangesOnlyByHltOrFault : step (start "HLT") = .next (start "HLT").halt ∧
    step (start "HLT x") = .next ((start "HLT x").faultedBy .malformedOperand "HLT x".toList) := ⟨rfl, rfl⟩
theorem witness_ParametersAndInputNeverChange : step (start "HLT") = .next (start "HLT").halt := rfl
theorem witness_ChannelsOnlyGrow : step (start "INT PRINT [2]") = .next ((start "INT PRINT [2]").emit (.value 8)).advance :=
  rfl
theorem witness_OnlyTheDestinationCellChanges :
    (exec (.mov (.cell 9) (.imm 5) false) (start "") = .next ((start "").writeCell 9 5).advance ∧
      storedCell (start "") (.mov (.cell 9) (.imm 5) false) ≠ some 0) ∧
    (exec (.hlt true) (start "HLT x") = .next ((start "HLT x").faultedBy .malformedOperand "HLT x".toList) ∧
      ((start "HLT x").faultedBy .malformedOperand "HLT x".toList).rs = .faulted) ∧
    (step (start "NOP") = .next ((start "NOP").report .unknownInstruction).advance ∧
      decode (start "NOP").line = .error (.unknownInstruction "NOP".toList)) :=
  ⟨⟨rfl, by decide⟩, ⟨rfl, rfl⟩, rfl, by decide⟩
theorem witness_FatalEntryIsPrecise : (start "HLT x").due "HLT x".toList ∧
    step (start "HLT x") = .next ((start "HLT x").faultedBy .malformedOperand "HLT x".toList) ∧
    ((start "HLT x").faultedBy .malformedOperand "HLT x".toList).rs = .faulted := ⟨⟨rfl, rfl⟩, rfl, rfl⟩
theorem witness_OnlyTheFetchedLineMatters : (start "HLT").due "HLT".toList ∧
    ["HLT".toList, "NOP".toList][(start "HLT").pc.toNat]? = some "HLT".toList := ⟨⟨rfl, rfl⟩, rfl⟩
theorem witness_LaterRecordsAreNotRead : step (start "HLT") = .next (start "HLT").halt ∧
    (start "HLT").nth noInput 0 = some (start "HLT") ∧ (start "HLT").nth noInput 1 = some (start "HLT").halt :=
  ⟨rfl, rfl, rfl⟩

/-- A run of each kind: one that never stops growing, one that ends, one that waits. -/
theorem witness_RunEndsWaitsOrGoesOn :
    (start "JMP 0").RunsForever noInput ∧ (start "HLT").EndsAt noInput 1 (start "HLT").halt ∧
    State.reset.EndsAt noInput 0 State.reset ∧
    ((start "INT INPUT [0]").inpos ≤ (start "INT INPUT [0]").input.length ∧
      (start "INT INPUT [0]").WaitsAt noInput 0 (start "INT INPUT [0]")) ∧
    (start "HLT").nth noInput 2 = none :=
  ⟨State.runsForever_of (P := fun u => u = start "JMP 0") (by rintro _ rfl; exact ⟨_, rfl, rfl⟩) rfl, ⟨rfl, by decide⟩,
    ⟨rfl, by decide⟩, ⟨by decide, rfl, rfl⟩, rfl⟩

/-- The reading line, where a valid record is there to read. -/
theorem readLoop_reads {u : State} (hp : u.params = readLoop.params) (hr : u.rs = .running) (hpc : u.pc = 0)
    (hn : u.nextRecord = some "7".toList) : step u = .next (u.consume.writeCell 0 7).advance := by
  have hdue : u.due "INT INPUT [0]".toList :=
    ⟨hr, (State.fetch_eq_some _).2 (by rw [hp, hpc]; exact ⟨by decide, rfl⟩)⟩
  have hdest : destCell u (.cell 0) = .ok 0 := by simp only [destCell, hp]; rfl
  have hval : inputValue u.params "7".toList = some 7 := by rw [hp]; decide
  rw [step_of_decode hdue (i := .intInput (.cell 0) false) (by decide)]
  simp only [exec, execIntInput, operandD, hdest, noSurplus, bind, Except.bind, pure, Except.pure, orRaise,
    Bool.false_eq_true, if_false, hn, hval]

/-- The line that goes back. -/
theorem readLoop_jumps {u : State} (hp : u.params = readLoop.params) (hr : u.rs = .running) (hpc : u.pc = 1) :
    step u = .next (u.setPc 0) := by
  have hdue : u.due "JMP 0".toList :=
    ⟨hr, (State.fetch_eq_some _).2 (by rw [hp, hpc]; exact ⟨by decide, rfl⟩)⟩
  have htarget : resolve u (.imm 0) = .ok 0 := by simp only [resolve, hp]; rfl
  rw [step_of_decode hdue (i := .jmp (.imm 0) false) (by decide)]
  simp only [exec, execJmp, branch, operandS, htarget, noSurplus, bind, Except.bind, pure, Except.pure, orRaise,
    Bool.false_eq_true, if_false, condAlways, if_true]

/-- On an infinite `INPUT` of valid records the reading loop goes on for ever. -/
theorem witness_RunEndsWaitsOrGoesOn_infinite_input :
    readLoop.RunsForever (Input.ofFunction fun _ => "7".toList) := by
  refine State.runsForever_of (P := fun u => u.params = readLoop.params ∧ u.rs = .running ∧
    u.inpos ≤ u.input.length ∧ (∀ r ∈ u.input, r = "7".toList) ∧ (u.pc = 0 ∨ u.pc = 1)) ?_
    ⟨rfl, rfl, Nat.le_refl _, fun _ h => (by cases h), .inl rfl⟩
  rintro u ⟨hp, hr, hi, hall, hpc⟩
  have hall' : ∀ r ∈ (u.deliver "7".toList).input, r = "7".toList := by
    intro r hm
    rcases List.mem_append.1 hm with hm | hm
    · exact hall r hm
    · exact List.mem_singleton.1 hm
  have hlt : u.inpos < (u.deliver "7".toList).input.length := by simp; omega
  rw [stepOn, State.feed_of_some (r := "7".toList) rfl]
  rcases hpc with hpc | hpc
  · have hnext : (u.deliver "7".toList).nextRecord = some "7".toList := by
      have h := List.getElem?_eq_getElem hlt
      rwa [hall' _ (List.getElem_mem hlt)] at h
    exact ⟨_, readLoop_reads hp hr hpc hnext, hp, hr, hlt, hall', .inr (by simp [hpc])⟩
  · exact ⟨_, readLoop_jumps hp hr hpc, hp, hr, Nat.le_of_lt hlt, hall', .inl rfl⟩

/-- The parameters of `start` are admissible. -/
theorem witness_InvHoldsAtConstruction : ParamsOk (start "HLT").params :=
  ⟨by decide, by decide, by decide, by decide, by decide, by decide⟩

/-- A state that meets the invariant, from what can be read off it. -/
theorem inv_of_small {s : State} (hp : ParamsOk s.params) (hm : s.mem = [(2, 8), (9, -3)]) (h10 : 10 ≤ s.params.memSize)
    (h64 : s.params.xlen = .bits 64) (hpc : inRange s.params.xlen s.pc = true)
    (hf : (s.flags.less && s.flags.equal) = false) (hh : s.rs = .halted → s.pc = s.params.icHalt)
    (hfi : s.rs = .faulted ↔ s.fr.isSome = true)
    (hfr : ∀ r, s.fr = some r → r.index = s.pc ∧ s.fetch = some r.text) (hi : s.inpos ≤ s.input.length)
    (he : s.events = []) : s.Inv where
  params_ok := hp
  mem_wf := by rw [hm]; decide
  mem_bound := by
    rw [hm]
    intro c hc
    rcases List.mem_cons.1 hc with rfl | hc
    · exact Nat.lt_of_lt_of_le (by decide) h10
    · rw [List.mem_singleton.1 hc]; exact Nat.lt_of_lt_of_le (by decide) h10
  mem_range := by rw [hm, h64]; decide
  pc_range := hpc
  flags_legal := hf
  halted_pc := hh
  fault_iff := hfi
  fault_here := hfr
  inpos_le := hi
  out_range := fun v hv => by simp [State.out, he] at hv
  rep_line := fun r hr => by simp [State.rep, he] at hr

/-- Running, halted, faulted and completed states that meet the invariant. -/
theorem witness_SignalOfTheFinalState :
    (start "HLT").Inv ∧ (start "HLT").halt.Inv ∧
    ((start "HLT x").faultedBy .malformedOperand "HLT x".toList).Inv ∧ ((start "HLT").setPc 1).Inv :=
  ⟨inv_of_small ⟨by decide, by decide, by decide, by decide, by decide, by decide⟩ rfl (by decide) rfl (by decide) rfl
      (by decide) (by decide) (fun _ h => by cases h) (by decide) rfl,
    inv_of_small ⟨by decide, by decide, by decide, by decide, by decide, by decide⟩ rfl (by decide) rfl (by decide) rfl
      (by decide) (by decide) (fun _ h => by cases h) (by decide) rfl,
    inv_of_small ⟨by decide, by decide, by decide, by decide, by decide, by decide⟩ rfl (by decide) rfl (by decide) rfl
      (by decide) (by decide) (fun _ h => by cases h; exact ⟨rfl, rfl⟩) (by decide) rfl,
    inv_of_small ⟨by decide, by decide, by decide, by decide, by decide, by decide⟩ rfl (by decide) rfl (by decide) rfl
      (by decide) (by decide) (fun _ h => by cases h) (by decide) rfl⟩

theorem witness_StepKeepsInv : (start "HLT").Inv ∧ step (start "HLT") = .next (start "HLT").halt :=
  ⟨witness_SignalOfTheFinalState.1, rfl⟩

end Sys2Proof.Tests
end

section
/-! The text functions, unknown lines and blank lines of 30_encoding.md: the laws of the decoder's verdict
that Laws/Text.lean does not hold, and the obligations O1, O2, O4, O11 and O12. -/

namespace Sys2Proof.Machine

/-! ### Brackets -/

/-- The bracket test by position (R56): the first and the last character of a token of two or more. -/
theorem isBracketed_iff_getElem? {u : Token} :
    isBracketed u = true ↔ 2 ≤ u.length ∧ u[0]? = some '[' ∧ u[u.length - 1]? = some ']' := by
  simp [isBracketed, List.head?_eq_getElem?, List.getLast?_eq_getElem?, and_assoc]

/-- A bracketed token and its inner text determine each other. -/
theorem isBracketed_and_inner_iff {u v : Token} : isBracketed u = true ∧ inner u = v ↔ u = bracket v := by
  constructor
  · rintro ⟨hb, rfl⟩
    exact isBracketed_iff.1 hb
  · rintro rfl
    exact ⟨bracket_isBracketed v, bracket_inner v⟩

/-! ### What the decoder answers -/

/-- The decoder rejects a token list exactly when its first token is no mnemonic (R69). -/
theorem decodeTokens_rejects_iff {toks : List Token} :
    (∃ r, decodeTokens toks = .error r) ↔ ∃ t ts, toks = t :: ts ∧ ∀ o : Opcode, t ≠ o.token := by
  cases toks with
  | nil => simp [decodeTokens]
  | cons t ts =>
    cases hs : selectOpcode t with
    | none => simpa [decodeTokens, hs] using selectOpcode_eq_none.1 hs
    | some o => simpa [decodeTokens, hs] using ⟨o, selectOpcode_eq_some.1 hs⟩

/-- No form of an INT line is the blank line (R67). -/
theorem decodeInt_ne_blankLine (ts : List Token) : decodeInt ts ≠ .blankLine := by
  unfold decodeInt
  repeat' split
  all_goals exact Instr.noConfusion

/-- A line with an opcode is not the blank line (R63). -/
theorem decodeFields_ne_blankLine (o : Opcode) (ts : List Token) : decodeFields o ts ≠ .blankLine := by
  cases o
  case int => exact decodeInt_ne_blankLine ts
  all_goals exact Instr.noConfusion

/-- Only the empty token list is the blank line. -/
theorem decodeTokens_eq_blankLine_iff {toks : List Token} : decodeTokens toks = .ok .blankLine ↔ toks = [] := by
  cases toks with
  | nil => simp [decodeTokens]
  | cons t ts =>
    cases hs : selectOpcode t with
    | none => simp [decodeTokens, hs]
    | some o => simp [decodeTokens, hs, decodeFields_ne_blankLine]

/-- A line is blank exactly when nothing is left of it after `Trim` (R61). -/
theorem decode_eq_blankLine_iff {l : Line} : decode l = .ok .blankLine ↔ trim l = [] := by
  rw [decode_eq, decodeTokens_eq_blankLine_iff, trim_eq_nil_iff_tokens]

/-! ### The obligations -/

/-- Settles O1: the decomposition of a line by `Trim`, and the two ends of what is left. -/
theorem trimRemovesOuterWhitespace : Obligations.TrimRemovesOuterWhitespace :=
  ⟨fun s => ⟨s.takeWhile isSpace, rightSpaces s, trim_decomposition s, takeWhile_all s, rightSpaces_all s,
    trim_head s, trim_getLast s⟩, fun _ h => trim_eq_nil.2 h⟩

/-- Settles O2, from the laws of `Tokens`, each proved by induction on the text. -/
theorem tokensAreTheMaximalRuns : Obligations.TokensAreTheMaximalRuns :=
  ⟨rfl, fun _ _ => tokens_cons_space, fun _ _ => tokens_run_append, tokens_wf, tokens_trim, by decide⟩

/-- Settles O4: a bracketed token is the bracket around its inner text; the corner cases of R56 by evaluation. -/
theorem bracketTestLooksAtBothEnds : Obligations.BracketTestLooksAtBothEnds :=
  ⟨fun _ => isBracketed_iff_getElem?, fun _ _ => isBracketed_and_inner_iff, by decide⟩

/-- Settles O11: the decoder rejects by the first token alone, and a rejected line is reported and skipped. -/
theorem unknownLineIsReportedAndSkipped : Obligations.UnknownLineIsReportedAndSkipped := by
  refine ⟨fun l => ?_, fun s l r hdue hreject => ?_, rfl⟩
  · rw [decode_eq, tokens_trim]
    exact decodeTokens_rejects_iff
  · rw [step_of_reject hdue hreject, State.report, State.due_line hdue]
    rfl

/-- Settles O12: only the blank line decodes to `blankLine`, whose rule is the advance of `pc`. -/
theorem blankLineOnlyAdvances : Obligations.BlankLineOnlyAdvances := by
  refine ⟨fun _ => decode_eq_blankLine_iff, fun _ => rfl, fun s l hdue hblank => ?_⟩
  rw [step_of_decode hdue (decode_eq_blankLine_iff.2 hblank)]
  rfl

end Sys2Proof.Machine
end

section
/-! PROOFS. The destination parser `Dest` (R77): what a token decodes to, and which cell index the bounds check
lets through. -/

namespace Sys2Proof

/-! ### The part of `Dest` that looks at the token alone -/

theorem decodeDst_of_not_bracketed {t : Token} (hb : isBracketed (strip t) = false) :
    decodeDst (some t) = .invalid := by simp [decodeDst, hb]

theorem decodeDst_of_not_integer {t : Token} (hb : isBracketed (strip t) = true)
    (hi : parseInt (inner (strip t)) = none) : decodeDst (some t) = .invalid := by simp [decodeDst, hb, hi]

theorem decodeDst_of_integer {t : Token} {i : Int} (hb : isBracketed (strip t) = true)
    (hi : parseInt (inner (strip t)) = some i) : decodeDst (some t) = .cell i := by simp [decodeDst, hb, hi]

namespace Machine

/-! ### The bounds check -/

theorem destCell_of_outside {s : State} {i : Int} (h : i < 0 ∨ (s.params.memSize : Int) ≤ i) :
    destCell s (.cell i) = .error .invalidDestination := by
  have hout : ¬ inMemory s.params i = true := by rw [inMemory_iff]; omega
  simp [destCell, hout]

theorem destCell_of_inside {s : State} {i : Int} (h0 : 0 ≤ i) (h1 : i < (s.params.memSize : Int)) :
    destCell s (.cell i) = .ok i.toNat := by simp [destCell, inMemory_iff.2 ⟨h0, h1⟩]

theorem destCell_congr_params {s u : State} (h : u.params = s.params) (d : Dst) : destCell u d = destCell s d := by
  cases d with
  | invalid => rfl
  | cell i => simp only [destCell, h]

/-! ### `Dest` of a token -/

theorem destToken_of_invalid {s : State} {t : Option Token} (hd : decodeDst t = .invalid) :
    destToken s t = .error .invalidDestination := by rw [destToken, hd]; rfl

theorem destToken_of_outside {s : State} {t : Option Token} {i : Int} (hd : decodeDst t = .cell i)
    (h : i < 0 ∨ (s.params.memSize : Int) ≤ i) : destToken s t = .error .invalidDestination := by
  rw [destToken, hd, destCell_of_outside h]

theorem destToken_of_inside {s : State} {t : Option Token} {i : Int} (hd : decodeDst t = .cell i)
    (h0 : 0 ≤ i) (h1 : i < (s.params.memSize : Int)) : destToken s t = .ok i.toNat := by
  rw [destToken, hd, destCell_of_inside h0 h1]

/-- The corner cases of R77 that are good for no `MEMSIZE`: no brackets, no integer, no inner text, a negative
index. -/
theorem destToken_corner_cases (s : State) :
    ∀ t ∈ ["5".toList, "[x]".toList, "[]".toList, "[-1]".toList],
      destToken s (some t) = .error .invalidDestination := by
  have h5 : decodeDst (some "5".toList) = .invalid := by decide
  have hx : decodeDst (some "[x]".toList) = .invalid := by decide
  have he : decodeDst (some "[]".toList) = .invalid := by decide
  have hn : decodeDst (some "[-1]".toList) = .cell (-1) := by decide
  simp only [List.forall_mem_cons]
  exact ⟨destToken_of_invalid h5, destToken_of_invalid hx, destToken_of_invalid he,
    destToken_of_outside hn (.inl (by decide)), by simp⟩

/-- Settles O19: the token is read as in `decodeDst`, and the index then passes the bounds check or not. -/
theorem destReadsDestinationTokens : Obligations.DestReadsDestinationTokens := by
  unfold Obligations.DestReadsDestinationTokens
  have h0 : decodeDst (some "[0],".toList) = .cell 0 := by decide
  have h2 : decodeDst (some "[2],".toList) = .cell 2 := by decide
  have h1000 : decodeDst (some "[1000]".toList) = .cell 1000 := by decide
  refine fun s => ⟨destToken_of_invalid rfl, fun t => ⟨?_, fun hb => ⟨?_, fun i hi => ⟨?_, ?_⟩⟩⟩, ?_,
    destToken_corner_cases s, fun hm => ?_, fun hm => ?_, fun hm => ?_⟩
  · exact fun hb => destToken_of_invalid (decodeDst_of_not_bracketed hb)
  · exact fun hi => destToken_of_invalid (decodeDst_of_not_integer hb hi)
  · exact destToken_of_outside (decodeDst_of_integer hb hi)
  · exact destToken_of_inside (decodeDst_of_integer hb hi)
  · exact fun m t => destCell_congr_params rfl (decodeDst t)
  · exact destToken_of_inside h0 (by omega) (by omega)
  · exact destToken_of_inside h2 (by omega) (by omega)
  · exact destToken_of_outside h1000 (by omega)

end Machine
end Sys2Proof
end

section
/-! PROOFS. MOV (R83): what it does for good operands and for each defect, and that writing back what a cell
holds changes nothing. -/

namespace Sys2Proof.Machine

/-! ### Memory -/

/-- Writing back what a cell holds: the canonical form leaves one list for the same contents (log entry 24). -/
theorem Memory.write_read_self {m : Memory} (hw : m.wf = true) (i : Nat) : m.write i (m.read i) = m := by
  induction m with
  | nil => simp [Memory.write, Memory.cons]
  | cons c rest ih =>
    obtain ⟨j, x⟩ := c
    obtain ⟨hx, hlt, hrest⟩ := (Memory.wf_cons j x rest).1 hw
    rcases Nat.lt_trichotomy i j with hij | rfl | hji
    · have hread : Memory.read ((j, x) :: rest) i = resetCell :=
        Memory.read_of_not_listed <| List.forall_mem_cons.2
          ⟨Nat.ne_of_gt hij, fun c hc => Nat.ne_of_gt (Nat.lt_trans hij (hlt c hc))⟩
      simp [hread, Memory.write, Memory.cons, hij]
    · simp [Memory.read_cons, Memory.write, Memory.cons, hx]
    · have hwrite : ∀ v, Memory.write ((j, x) :: rest) i v = (j, x) :: Memory.write rest i v := fun v => by
        simp [Memory.write, Nat.lt_asymm hji, Nat.ne_of_gt hji]
      rw [hwrite, Memory.read_cons, if_neg (Nat.ne_of_lt hji), ih hrest]

/-! ### Operands -/

/-- `Resolve` raises no condition but these two (R75). -/
theorem resolve_error_reason {s : State} {a : Src} {c : Fatal} (h : resolve s a = .error c) :
    c = .malformedOperand ∨ c = .outOfBoundsAddress := by
  have hc := resolve_error_condition h
  cases a with
  | imm v =>
    rw [srcCondition] at hc
    split at hc
    · cases hc
    · cases hc; exact .inl rfl
  | cell i =>
    rw [srcCondition] at hc
    split at hc
    · cases hc
    · cases hc; exact .inr rfl
  | malformed => cases hc; exact .inl rfl

/-- A cell that is good as a destination is good as a source, and resolves to its value (R75, R77). -/
theorem resolve_cell_of_destCell {s : State} {i : Int} {k : Nat} (h : destCell s (.cell i) = .ok k) :
    resolve s (.cell i) = .ok (s.mem.read k) := by
  cases hi : inMemory s.params i <;> simp_all [destCell, resolve]

/-! ### MOV -/

theorem exec_mov_of_condition {s : State} {d : Dst} {a : Src} {sp : Bool} {c : Fatal}
    (h : leftmost (operandConditions s.params (.mov d a sp)) = some c) :
    exec (.mov d a sp) s = .next (s.faultedBy c s.line) := by
  rcases execMov_cases d a sp s with ⟨c', hc', hexec⟩ | ⟨hnone, -⟩
  · cases h.symm.trans hc'
    exact hexec
  · cases h.symm.trans hnone

theorem exec_mov_of_ok {s : State} {d : Dst} {a : Src} {k : Nat} {x : Int} (hk : destCell s d = .ok k)
    (hx : resolve s a = .ok x) : exec (.mov d a false) s = .next (s.writeCell k x).advance := by
  simp [exec, execMov, operandsDS, hk, hx, noSurplus, orRaise_ok, bind, Except.bind, pure, Except.pure]

theorem exec_mov_of_bad_dest {s : State} {d : Dst} {c : Fatal} (hd : destCell s d = .error c) (a : Src)
    (sp : Bool) : exec (.mov d a sp) s = .next (s.faultedBy c s.line) :=
  exec_mov_of_condition (by simp [operandConditions, (destCell_error_condition hd).2, leftmost])

theorem exec_mov_of_bad_source {s : State} {d : Dst} {a : Src} {k : Nat} {c : Fatal} (hk : destCell s d = .ok k)
    (ha : resolve s a = .error c) (sp : Bool) : exec (.mov d a sp) s = .next (s.faultedBy c s.line) :=
  exec_mov_of_condition (by
    simp [operandConditions, (destCell_ok_condition hk).1, resolve_error_condition ha, leftmost])

theorem exec_mov_of_surplus {s : State} {d : Dst} {a : Src} {k : Nat} {x : Int} (hk : destCell s d = .ok k)
    (hx : resolve s a = .ok x) : exec (.mov d a true) s = .next (s.faultedBy .malformedOperand s.line) :=
  exec_mov_of_condition (by
    simp [operandConditions, (destCell_ok_condition hk).1, resolve_ok_condition hx, surplusCondition, leftmost])

/-- MOV of a cell to itself only advances (R83). -/
theorem exec_mov_same_cell {s : State} {i : Int} {k : Nat} (hw : s.mem.wf = true)
    (hk : destCell s (.cell i) = .ok k) :
    exec (.mov (.cell i) (.cell i) false) s = .next s.advance := by
  have hback : s.writeCell k (s.mem.read k) = s := by rw [State.writeCell, Memory.write_read_self hw]
  rw [exec_mov_of_ok hk (resolve_cell_of_destCell hk), hback]

/-- The rule's example, `MOV [0], 5` on a fresh engine. -/
theorem exec_mov_example {p : Params} (input : List Line) (hm : 1 ≤ p.memSize) (h5 : inRange p.xlen 5 = true) :
    ∃ t, exec (.mov (.cell 0) (.imm 5) false) (State.construct p input) = .next t ∧
      t.mem.read 0 = 5 ∧ t.pc = 1 := by
  have hdest : destCell (State.construct p input) (.cell 0) = .ok 0 :=
    destCell_of_inside (by decide) (Int.ofNat_lt.2 hm)
  have hsrc : resolve (State.construct p input) (.imm 5) = .ok 5 := by simp [resolve, h5]
  exact ⟨_, exec_mov_of_ok hdest hsrc, Memory.read_write rfl 0 5 0, by simp⟩

/-- Settles O28, each clause by the lemma on MOV for that state of its operands. -/
theorem movCopiesAValue : Obligations.MovCopiesAValue := by
  unfold Obligations.MovCopiesAValue
  refine ⟨fun s d a k x hk hx => ⟨exec_mov_of_ok hk hx, exec_mov_of_surplus hk hx, fun hw => ?_, fun j hj => ?_⟩,
    fun s d a sp c hd => ⟨(destCell_error_condition hd).1, exec_mov_of_bad_dest hd a sp⟩,
    fun s d a sp k c hk ha => ⟨resolve_error_reason ha, exec_mov_of_bad_source hk ha sp⟩,
    fun s i k hw hk => exec_mov_same_cell hw hk, fun ts => ?_,
    fun p input hm h5 => exec_mov_example input hm h5⟩
  · simp [Memory.read_write hw]
  · exact Memory.read_write_ne s.mem x hj.symm
  · exact Laws.TokenRoundTrip.tokens_opcode .mov ts

end Sys2Proof.Machine
end

section
/-! PROOFS. CMP (R93): what it does for good operands and for each defect; and that the flags it leaves are what
a later branch decides by, because nothing but a CMP writes them (R94). -/

namespace Sys2Proof.Machine

/-! ### The flags CMP computes -/

theorem compareFlags_of_lt {x y : Int} (h : x < y) : compareFlags x y = ⟨true, false⟩ := by
  simp [compareFlags, h]

theorem compareFlags_of_gt {x y : Int} (h : y < x) : compareFlags x y = ⟨false, false⟩ := by
  simp [compareFlags, h, Int.lt_asymm h]

theorem compareFlags_self (x : Int) : compareFlags x x = ⟨false, true⟩ := by simp [compareFlags]

@[simp] theorem compareFlags_less (x y : Int) : (compareFlags x y).less = decide (x < y) := by
  rcases Int.lt_trichotomy x y with h | rfl | h
  · simp [compareFlags_of_lt h, h]
  · simp [compareFlags_self]
  · simp [compareFlags_of_gt h, Int.le_of_lt h]

@[simp] theorem compareFlags_equal (x y : Int) : (compareFlags x y).equal = decide (x = y) := by
  rcases Int.lt_trichotomy x y with h | rfl | h
  · simp [compareFlags_of_lt h, Int.ne_of_lt h]
  · simp [compareFlags_self]
  · simp [compareFlags_of_gt h, Int.ne_of_gt h]

@[simp] theorem greater_compareFlags (x y : Int) : greater (compareFlags x y) = decide (y < x) := by
  rcases Int.lt_trichotomy x y with h | rfl | h
  · simp [greater, compareFlags_of_lt h, Int.le_of_lt h]
  · simp [greater, compareFlags_self]
  · simp [greater, compareFlags_of_gt h, h]

/-! ### CMP -/

/-- The leftmost condition of the operands is raised, whatever the instruction (R79, R135). -/
theorem exec_of_condition {i : Instr} {s : State} {c : Fatal}
    (h : leftmost (operandConditions s.params i) = some c) : exec i s = .next (s.faultedBy c s.line) := by
  rcases exec_cases i s with ⟨c', hc', hexec⟩ | ⟨hnone, -⟩
  · cases h.symm.trans hc'
    exact hexec
  · cases h.symm.trans hnone

theorem exec_cmp_of_ok {s : State} {a b : Src} {x y : Int} (hx : resolve s a = .ok x)
    (hy : resolve s b = .ok y) :
    exec (.cmp a b false) s = .next (s.setFlags (compareFlags x y)).advance := by
  rcases execCmp_cases a b false s with ⟨c, hc, -⟩ | ⟨-, -, x', y', hx', hy', hexec⟩
  · simp [operandConditions, resolve_ok_condition hx, resolve_ok_condition hy, surplusCondition, leftmost] at hc
  · cases hx.symm.trans hx'
    cases hy.symm.trans hy'
    exact hexec

theorem exec_cmp_of_lt {s : State} {a b : Src} {x y : Int} (hx : resolve s a = .ok x)
    (hy : resolve s b = .ok y) (h : x < y) :
    exec (.cmp a b false) s = .next { s with flags := ⟨true, false⟩, pc := s.pc + 1 } := by
  rw [exec_cmp_of_ok hx hy, compareFlags_of_lt h]; rfl

theorem exec_cmp_of_gt {s : State} {a b : Src} {x y : Int} (hx : resolve s a = .ok x)
    (hy : resolve s b = .ok y) (h : y < x) :
    exec (.cmp a b false) s = .next { s with flags := ⟨false, false⟩, pc := s.pc + 1 } := by
  rw [exec_cmp_of_ok hx hy, compareFlags_of_gt h]; rfl

theorem exec_cmp_of_eq {s : State} {a b : Src} {x y : Int} (hx : resolve s a = .ok x)
    (hy : resolve s b = .ok y) (h : x = y) :
    exec (.cmp a b false) s = .next { s with flags := ⟨false, true⟩, pc := s.pc + 1 } := by
  rw [exec_cmp_of_ok hx hy, h, compareFlags_self]; rfl

theorem exec_cmp_of_surplus {s : State} {a b : Src} {x y : Int} (hx : resolve s a = .ok x)
    (hy : resolve s b = .ok y) : exec (.cmp a b true) s = .next (s.faultedBy .malformedOperand s.line) :=
  exec_of_condition (by
    simp [operandConditions, resolve_ok_condition hx, resolve_ok_condition hy, surplusCondition, leftmost])

theorem exec_cmp_of_bad_left {s : State} {a : Src} {c : Fatal} (ha : resolve s a = .error c) (b : Src)
    (sp : Bool) : exec (.cmp a b sp) s = .next (s.faultedBy c s.line) :=
  exec_of_condition (by simp [operandConditions, resolve_error_condition ha, leftmost])

theorem exec_cmp_of_bad_right {s : State} {a b : Src} {x : Int} {c : Fatal} (hx : resolve s a = .ok x)
    (hb : resolve s b = .error c) (sp : Bool) : exec (.cmp a b sp) s = .next (s.faultedBy c s.line) :=
  exec_of_condition (by
    simp [operandConditions, resolve_ok_condition hx, resolve_error_condition hb, leftmost])

/-! ### The operands of the rule's examples -/

theorem resolve_imm_of_inRange {s : State} {v : Int} (h : inRange s.params.xlen v = true) :
    resolve s (.imm v) = .ok v := by simp [resolve, h]

theorem resolve_cell_of_inside {s : State} {i : Int} (h0 : 0 ≤ i) (h1 : i < (s.params.memSize : Int)) :
    resolve s (.cell i) = .ok (s.mem.read i.toNat) := by simp [resolve, inMemory_iff.2 ⟨h0, h1⟩]

/-- Settles O33: the order of the operands by trichotomy, each defect by the lemma on CMP for it. -/
theorem cmpSetsBothFlags : Obligations.CmpSetsBothFlags := by
  unfold Obligations.CmpSetsBothFlags
  refine ⟨fun s a b x y hx hy => ⟨exec_cmp_of_lt hx hy, exec_cmp_of_gt hx hy, exec_cmp_of_eq hx hy,
      exec_cmp_of_surplus hx hy⟩, by decide, fun s a b sp c ha => exec_cmp_of_bad_left ha b sp,
    fun s a b sp x c hx hb => exec_cmp_of_bad_right hx hb sp, Laws.TokenRoundTrip.tokens_opcode .cmp,
    fun s h64 => ?_⟩
  have himm : ∀ v : Int, inRange (.bits 64) v = true → resolve s (.imm v) = .ok v :=
    fun v hv => resolve_imm_of_inRange (h64.symm ▸ hv)
  have h3 := himm 3 (by decide)
  have h5 := himm 5 (by decide)
  refine ⟨?_, ?_, ?_, fun hm h8 => ?_⟩
  · exact exec_cmp_of_lt (himm _ (by decide)) (himm _ (by decide)) (by decide)
  · exact exec_cmp_of_lt h3 h5 (by decide)
  · exact exec_cmp_of_gt h5 h3 (by decide)
  · exact exec_cmp_of_eq (resolve_cell_of_inside (by decide) (by omega)) (himm 8 (by decide)) h8

/-! ### Nothing but a CMP writes the flags -/

theorem Effect.flags_of_not_cmp {s t : State} {i : Instr} (h : Effect s i (.next t))
    (hcmp : ∀ a b sp, i ≠ .cmp a b sp) : t.flags = s.flags := by
  cases h with
  | cmp => exact absurd rfl (hcmp _ _ _)
  | _ => rfl

theorem exec_flags_of_not_cmp {s t : State} {i : Instr} (h : exec i s = .next t)
    (hcmp : ∀ a b sp, i ≠ .cmp a b sp) : t.flags = s.flags := by
  rcases exec_cases i s with ⟨c, -, hfault⟩ | ⟨-, heffect⟩
  · cases h.symm.trans hfault
    rfl
  · exact (h ▸ heffect).flags_of_not_cmp hcmp

theorem step_flags_of_not_cmp {s t : State} {l : Line} (hdue : s.due l)
    (hcmp : ∀ a b sp, decode l ≠ .ok (.cmp a b sp)) (h : step s = .next t) : t.flags = s.flags := by
  cases hd : decode l with
  | ok i =>
    rw [step_of_decode hdue hd] at h
    exact exec_flags_of_not_cmp h fun a b sp hi => hcmp a b sp (hd.trans (congrArg _ hi))
  | error r =>
    rw [step_of_reject hdue hd] at h
    cases h
    rfl

theorem RunWithoutCmp.flags_eq {s u : State} (h : RunWithoutCmp s u) : u.flags = s.flags := by
  induction h with
  | refl => rfl
  | step hdue hcmp hstep _ ih => exact ih.trans (step_flags_of_not_cmp hdue hcmp hstep)

/-! ### Branches -/

/-- A branch whose condition on the flags says `P` loads its target if `P` holds, and else advances (R95). -/
theorem branch_of_iff {s : State} {t : Src} {z : Int} {cond : Flags → Bool} {P : Prop} [Decidable P]
    (hz : resolve s t = .ok z) (hP : cond s.flags = true ↔ P) :
    branch cond t false s = .next { s with pc := if P then z else s.pc + 1 } := by
  rcases branch_cases cond t false s with ⟨c, hc, -⟩ | ⟨-, -, x, hx, hbranch⟩
  · simp [resolve_ok_condition hz, surplusCondition, leftmost] at hc
  · cases hz.symm.trans hx
    rw [hbranch, if_congr hP rfl rfl]
    rfl

/-- Settles O34: the flags at the branch are those the CMP computed, and each condition says of them what the
order of the compared values says. -/
theorem branchDecidesByLastCmp : Obligations.BranchDecidesByLastCmp := by
  unfold Obligations.BranchDecidesByLastCmp
  intro s t u a b target x y z hx hy hcmp
  have ht : t.flags = compareFlags x y := by
    cases (exec_cmp_of_ok hx hy).symm.trans hcmp
    rfl
  refine ⟨by simp [ht], fun hrun hz => ?_⟩
  have hu : u.flags = compareFlags x y := hrun.flags_eq.trans ht
  refine ⟨branch_of_iff hz ?_, branch_of_iff hz ?_, branch_of_iff hz ?_, branch_of_iff hz ?_,
    branch_of_iff hz ?_, branch_of_iff hz ?_⟩
  · simp [hu, condEqual]
  · simp [hu, condNotEqual]
  · simp [hu, condLess]
  · simp [hu, condGreater]
  · simp [hu, condLessEqual, Int.le_iff_lt_or_eq]
  · simp [hu, condGreaterEqual, Int.le_iff_lt_or_eq, @eq_comm _ y x]

end Sys2Proof.Machine
end

section
/-! PROOFS. INT, print-value form (R106): what it does for a good reference and for each defect, and which INT lines
are of this form. -/

namespace Sys2Proof.Machine

/-! ### The reference -/

theorem resolve_cell_of_outside {s : State} {i : Int} (h : i < 0 ∨ (s.params.memSize : Int) ≤ i) :
    resolve s (.cell i) = .error .outOfBoundsAddress := by
  have hout : ¬ inMemory s.params i = true := by rw [inMemory_iff]; omega
  simp [resolve, hout]

/-! ### Execution -/

theorem exec_intPrintValue_of_ok {s : State} {r : Ref} {x : Int} (hx : resolve s (refSrc r) = .ok x) :
    exec (.intPrintValue r false) s = .next (s.emit (.value x)).advance := by
  rcases execIntPrintValue_cases r false s with ⟨c, hc, -⟩ | ⟨-, -, x', hx', hexec⟩
  · simp [operandConditions, refCondition_eq, resolve_ok_condition hx, surplusCondition, leftmost] at hc
  · cases hx.symm.trans hx'
    exact hexec

theorem exec_intPrintValue_of_surplus {s : State} {r : Ref} {x : Int} (hx : resolve s (refSrc r) = .ok x) :
    exec (.intPrintValue r true) s = .next (s.faultedBy .malformedOperand s.line) :=
  exec_of_condition (by
    simp [operandConditions, refCondition_eq, resolve_ok_condition hx, surplusCondition, leftmost])

theorem exec_intPrintValue_of_bad_ref {s : State} {r : Ref} {c : Fatal} (hr : resolve s (refSrc r) = .error c)
    (sp : Bool) : exec (.intPrintValue r sp) s = .next (s.faultedBy c s.line) :=
  exec_of_condition (by simp [operandConditions, refCondition_eq, resolve_error_condition hr, leftmost])

/-! ### Decoding -/

/-- A print line whose third token is bracketed is of the print-value form, whatever follows (R67). -/
theorem decodeInt_of_print_bracketed {k t : Token} (hk : upper k = keywordPrint)
    (ht : isBracketed (strip t) = true) (more : List Token) :
    decodeInt (k :: t :: more) = .intPrintValue (decodeRef t) (decide (more ≠ [])) := by
  simp [decodeInt, hk, ht, List.length_pos_iff]

/-- Settles O37: a cell by the bounds check, a reference that does not parse by its one condition, and the encoding by
the choice of the form; the rule's lines by evaluation. -/
theorem printValueEmitsTheCell : Obligations.PrintValueEmitsTheCell := by
  unfold Obligations.PrintValueEmitsTheCell
  refine ⟨fun s i h0 h1 => ?_, fun s i sp hi => ?_, fun s sp => ?_, fun k t more hk ht => ?_, by decide, by decide,
    by decide, fun s hm h8 => ?_⟩
  · have hx := resolve_cell_of_inside h0 h1
    exact ⟨exec_intPrintValue_of_ok hx, exec_intPrintValue_of_surplus hx⟩
  · exact exec_intPrintValue_of_bad_ref (resolve_cell_of_outside hi) sp
  · exact exec_intPrintValue_of_bad_ref rfl sp
  · rw [← decodeInt_of_print_bracketed hk ht]
    exact Laws.TokenRoundTrip.tokens_opcode .int (k :: t :: more)
  · have hx : resolve s (.cell 2) = .ok (s.mem.read 2) := resolve_cell_of_inside (by decide) (by omega)
    exact ⟨_, exec_intPrintValue_of_ok hx, by simp [h8]⟩

end Sys2Proof.Machine
end

section
/-! PROOFS. When a step exists (R114), and that none exists from an ended run (R125): a step exists where one is
due, but for the wait for input. -/

namespace Sys2Proof.Machine

/-! ### Where a step is due -/

theorem State.exists_due_iff {s : State} :
    (∃ l, s.due l) ↔ s.rs = .running ∧ 0 ≤ s.pc ∧ s.pc < (s.params.progLen : Int) := by
  have hfetch : (∃ l, s.fetch = some l) ↔ 0 ≤ s.pc ∧ s.pc < (s.params.progLen : Int) := by
    rw [← Option.ne_none_iff_exists', ne_eq, State.fetch_eq_none]
    omega
  simp only [State.due, exists_and_left, hfetch]

/-- An input record does not make a step due. -/
@[simp] theorem State.deliver_due (s : State) (r l : Line) : (s.deliver r).due l ↔ s.due l := Iff.rfl

theorem State.signal_eq_completed_iff {s : State} :
    s.signal = some .completed ↔ s.rs = .running ∧ s.fetch = none := by
  refine ⟨fun h => ?_, fun ⟨hrs, hfetch⟩ => signal_of_outside hrs hfetch⟩
  cases hrs : s.rs with
  | halted => simp [State.signal, hrs] at h
  | faulted => simp [State.signal, hrs] at h
  | running =>
    cases hfetch : s.fetch with
    | none => exact ⟨rfl, rfl⟩
    | some l => simp [State.signal, hrs, hfetch] at h

theorem State.not_due_of_ended {s : State}
    (h : s.rs = .halted ∨ s.rs = .faulted ∨ s.signal = some .completed) (l : Line) : ¬ s.due l := by
  rintro ⟨hrs, hfetch⟩
  rcases h with hhalted | hfaulted | hcompleted
  · cases hrs.symm.trans hhalted
  · cases hrs.symm.trans hfaulted
  · cases hfetch.symm.trans (State.signal_eq_completed_iff.1 hcompleted).2

/-! ### Where no step is due -/

theorem step_ne_next_of_not_due {s : State} (h : ∀ l, ¬ s.due l) (t : State) : step s ≠ .next t := by
  intro hstep
  obtain ⟨l, hdue, -⟩ := due_of_next hstep
  exact h l hdue

/-- Where no step is due the run has ended, and `step` says how (R122). -/
theorem step_fault_of_not_due {s : State} (h : ∀ l, ¬ s.due l) :
    ∃ f, step s = .fault f ∧ f ≠ .waitingForInput := by
  cases hrs : s.rs with
  | halted => exact ⟨_, step_of_halted hrs, by decide⟩
  | faulted => exact ⟨_, step_of_faulted hrs, by decide⟩
  | running =>
    have hfetch : s.fetch = none := Option.eq_none_iff_forall_ne_some.2 fun l hl => h l ⟨hrs, hl⟩
    exact ⟨_, step_of_outside hrs hfetch, by decide⟩

/-! ### The wait -/

theorem exec_intInput_of_no_record {s : State} {d : Dst} {k : Nat} (hd : destCell s d = .ok k)
    (hrecord : s.nextRecord = none) : exec (.intInput d false) s = .fault .waitingForInput := by
  rcases execIntInput_cases d false s with ⟨c, hc, -⟩ | ⟨-, -, k', -, ⟨-, hwait⟩ | ⟨r, hr, -⟩⟩
  · simp [operandConditions, (destCell_ok_condition hd).1, surplusCondition, leftmost] at hc
  · exact hwait
  · cases hrecord.symm.trans hr

theorem step_of_waits {s : State} (h : s.waits) : step s = .fault .waitingForInput := by
  obtain ⟨l, d, k, hdue, hdecode, hd, hrecord⟩ := h
  rw [step_of_decode hdue hdecode, exec_intInput_of_no_record hd hrecord]

/-- An instruction has a next state, or is an input-form INT with a good destination and no record. -/
theorem exec_next_or_wait (i : Instr) (s : State) :
    (∃ t, exec i s = .next t) ∨
      ∃ d k, i = .intInput d false ∧ destCell s d = .ok k ∧ s.nextRecord = none := by
  rcases exec_cases i s with ⟨c, -, hfault⟩ | ⟨-, heffect⟩
  · exact .inl ⟨_, hfault⟩
  · generalize exec i s = outcome at heffect
    cases heffect with
    | wait hd hrecord => exact .inr ⟨_, _, rfl, hd, hrecord⟩
    | _ => exact .inl ⟨_, rfl⟩

theorem step_next_or_waits_of_due {s : State} {l : Line} (hdue : s.due l) :
    (∃ t, step s = .next t) ∨ s.waits := by
  cases hdecode : decode l with
  | error r => exact .inl ⟨_, step_of_reject hdue hdecode⟩
  | ok i =>
    rw [step_of_decode hdue hdecode]
    rcases exec_next_or_wait i s with hnext | ⟨d, k, rfl, hd, hrecord⟩
    · exact .inl hnext
    · exact .inr ⟨l, d, k, hdue, hdecode, hd, hrecord⟩

/-- A step exists exactly where one is due that does not wait (R114). -/
theorem step_next_iff {s : State} : (∃ t, step s = .next t) ↔ (∃ l, s.due l) ∧ ¬ s.waits := by
  constructor
  · rintro ⟨t, hstep⟩
    obtain ⟨l, hdue, -⟩ := due_of_next hstep
    exact ⟨⟨l, hdue⟩, fun hwaits => by cases hstep.symm.trans (step_of_waits hwaits)⟩
  · rintro ⟨⟨l, hdue⟩, hwaits⟩
    exact (step_next_or_waits_of_due hdue).resolve_right hwaits

/-! ### The obligations -/

/-- Settles O44: a step is due exactly where the machine runs and `pc` names a line; a due step is taken or waits,
and where none is due the run has ended. -/
theorem stepExistsExactlyWhen : Obligations.StepExistsExactlyWhen := by
  unfold Obligations.StepExistsExactlyWhen
  refine fun s => ⟨?_, fun hout => ?_⟩
  · simp only [step_next_iff, State.exists_due_iff, and_assoc]
  · exact step_fault_of_not_due (not_exists.1 (mt State.exists_due_iff.1 hout))

/-- Settles O46: no step is due in an ended run, and an input record does not make one due. -/
theorem endedRunHasNoStep : Obligations.EndedRunHasNoStep := by
  unfold Obligations.EndedRunHasNoStep
  intro s hended
  have hdue : ∀ l, ¬ s.due l := State.not_due_of_ended hended
  exact ⟨step_ne_next_of_not_due hdue, fun r => step_ne_next_of_not_due fun l => by simp [hdue l]⟩

end Sys2Proof.Machine
end

section
/-! PROOFS. DivisionByZero (R128): the one condition an instruction reports, raised by DIV and MOD on a zero divisor. -/

namespace Sys2Proof.Machine

/-! ### A zero divisor is reported and the line skipped -/

theorem divide_of_zero_divisor {s : State} {d : Dst} {a b : Src} {k : Nat} {x : Int} (hk : destCell s d = .ok k)
    (hx : resolve s a = .ok x) (hb : resolve s b = .ok 0) (f : Int → Int → Int) :
    divide f d a b false s = .next (s.report .divisionByZero).advance := by
  rcases divide_cases f d a b false s with ⟨c, hc, -⟩ | ⟨-, -, _, _, y, -, -, hy, ⟨-, hreport⟩ | ⟨hy0, -⟩⟩
  · simp [(destCell_ok_condition hk).1, resolve_ok_condition hx, resolve_ok_condition hb, surplusCondition,
      leftmost] at hc
  · exact hreport
  · cases hb.symm.trans hy
    exact absurd rfl hy0

theorem exec_of_zero_divisor {s : State} {i : Instr} {d : Dst} {a b : Src} {k : Nat} {x : Int}
    (hi : i = .div d a b false ∨ i = .mod d a b false) (hk : destCell s d = .ok k) (hx : resolve s a = .ok x)
    (hb : resolve s b = .ok 0) : exec i s = .next (s.report .divisionByZero).advance := by
  rcases hi with rfl | rfl
  · rw [exec, execDiv, divide_of_zero_divisor hk hx hb]
  · rw [exec, execMod, divide_of_zero_divisor hk hx hb]

/-! ### Nothing else an instruction does is reported -/

theorem Effect.rep_eq_or_zero_divisor {s t : State} {i : Instr} (h : Effect s i (.next t)) :
    t.rep = s.rep ∨ ∃ d a b k x, (i = .div d a b false ∨ i = .mod d a b false) ∧
      destCell s d = .ok k ∧ resolve s a = .ok x ∧ resolve s b = .ok 0 := by
  cases h with
  | divZero hk hx hb => exact .inr ⟨_, _, _, _, _, .inl rfl, hk, hx, hb⟩
  | modZero hk hx hb => exact .inr ⟨_, _, _, _, _, .inr rfl, hk, hx, hb⟩
  | _ => exact .inl (by simp)

/-- An instruction adds to the reports exactly when it divides by zero; entry of a fatal condition adds none. -/
theorem exec_rep_ne_iff {s t : State} {i : Instr} (h : exec i s = .next t) :
    t.rep ≠ s.rep ↔ ∃ d a b k x, (i = .div d a b false ∨ i = .mod d a b false) ∧
      destCell s d = .ok k ∧ resolve s a = .ok x ∧ resolve s b = .ok 0 := by
  constructor
  · intro hne
    rcases exec_cases i s with ⟨c, -, hfault⟩ | ⟨-, heffect⟩
    · cases h.symm.trans hfault
      exact absurd (State.faultedBy_rep ..) hne
    · exact (h ▸ heffect).rep_eq_or_zero_divisor.resolve_left hne
  · rintro ⟨d, a, b, k, x, hi, hk, hx, hb⟩
    cases h.symm.trans (exec_of_zero_divisor hi hk hx hb)
    simp

/-- Settles O31: DIV and MOD share the zero-divisor test, and the other effects of `exec` leave the reports. -/
theorem divisionByZeroIsReportedAndSkipped : Obligations.DivisionByZeroIsReportedAndSkipped := by
  unfold Obligations.DivisionByZeroIsReportedAndSkipped
  exact ⟨fun s d a b k x hk hx hb =>
      ⟨exec_of_zero_divisor (.inl rfl) hk hx hb, exec_of_zero_divisor (.inr rfl) hk hx hb⟩,
    fun _ _ => State.due_line, fun _ _ _ => exec_rep_ne_iff, rfl⟩

end Sys2Proof.Machine
end

section
/-! PROOFS. The round trip of decoder and encoder: the canonical tokens of an instruction are tokens, so the
canonical line has just these tokens, and the decoder reads the instruction back from them. -/

namespace Sys2Proof.Machine

/-! ### The encoder writes tokens -/

theorem tokenWf_iff {t : Token} : tokenWf t = true ↔ t ≠ [] ∧ ∀ c ∈ t, isSpace c = false := by
  simp [tokenWf, List.all_eq_true]

@[simp] theorem tokenWf_opcode (o : Opcode) : tokenWf o.token = true := by cases o <;> decide

@[simp] theorem tokenWf_badToken : tokenWf badToken = true := by decide

@[simp] theorem tokenWf_renderInt (v : Int) : tokenWf (renderInt v) = true :=
  tokenWf_iff.2 ⟨(renderInt_char v).1, fun c hc => ((renderInt_char v).2 c hc).1⟩

theorem tokenWf_bracket {u : List Char} (h : tokenWf u = true) : tokenWf (bracket u) = true := by
  obtain ⟨-, hchars⟩ := tokenWf_iff.1 h
  have hopen : isSpace '[' = false := by decide
  have hclose : isSpace ']' = false := by decide
  simpa [tokenWf_iff, bracket, or_imp, forall_and, hopen, hclose] using hchars

@[simp] theorem tokenWf_commaed {t : Token} (h : tokenWf t = true) : tokenWf (commaed t) = true := by
  obtain ⟨-, hchars⟩ := tokenWf_iff.1 h
  have hcomma : isSpace ',' = false := by decide
  simpa [tokenWf_iff, commaed, or_imp, forall_and, hcomma] using hchars

@[simp] theorem tokenWf_src (a : Src) : tokenWf a.token = true := by
  cases a with
  | imm v => exact tokenWf_renderInt v
  | cell i => exact tokenWf_bracket (tokenWf_renderInt i)
  | malformed => exact tokenWf_badToken

@[simp] theorem tokenWf_dst (d : Dst) : tokenWf d.token = true := by
  cases d with
  | cell i => exact tokenWf_bracket (tokenWf_renderInt i)
  | invalid => exact tokenWf_badToken

@[simp] theorem tokenWf_ref (r : Ref) : tokenWf r.token = true := by
  cases r with
  | cell i => exact tokenWf_bracket (tokenWf_renderInt i)
  | malformed => exact tokenWf_bracket tokenWf_badToken

@[simp] theorem all_tokenWf_surplusToken (sp : Bool) : (surplusToken sp).all tokenWf = true := by
  cases sp <;> decide

/-- The text tokens a print-text line can have: those of the instruction, if it is a print-text form. -/
def TextOk (i : Instr) : Prop := ∀ ts, i = .intPrintText ts → textWf ts = true

theorem textWf_all {ts : List Token} (h : textWf ts = true) : ts.all tokenWf = true :=
  (Bool.and_eq_true_iff.1 h).1

/-- Every canonical token is a token (R54, R72). -/
theorem all_tokenWf_tokens {i : Instr} (h : TextOk i) : i.tokens.all tokenWf = true := by
  have hprint : tokenWf keywordPrint = true := by decide
  have hinput : tokenWf ['I', 'N', 'P', 'U', 'T'] = true := by decide
  cases i with
  | intPrintText ts => simp [Instr.tokens, hprint, textWf_all (h ts rfl)]
  | _ => simp [Instr.tokens, tokensDS, tokensDSS, tokensT, hprint, hinput]

/-! ### The decoder reads them back -/

/-- The canonical line of an instruction has the canonical tokens. -/
theorem tokens_encode {i : Instr} (h : TextOk i) : tokens (encode i) = i.tokens :=
  tokens_join fun t ht => tokenWf_iff.1 (List.all_eq_true.1 (all_tokenWf_tokens h) t ht)

open Laws.TokenRoundTrip in
/-- Every instruction is read back from its canonical tokens. -/
theorem decodeTokens_tokens (i : Instr) : Statement i := by
  cases i with
  | mov d a sp => exact mov d a sp
  | add d a b sp => exact add d a b sp
  | sub d a b sp => exact sub d a b sp
  | mul d a b sp => exact mul d a b sp
  | div d a b sp => exact div d a b sp
  | mod d a b sp => exact mod d a b sp
  | cmp a b sp => exact cmp a b sp
  | jmp t sp => exact jmp t sp
  | jl t sp => exact jl t sp
  | jg t sp => exact jg t sp
  | jle t sp => exact jle t sp
  | jge t sp => exact jge t sp
  | je t sp => exact je t sp
  | jne t sp => exact jne t sp
  | intPrintValue r sp => exact intPrintValue r sp
  | intPrintText ts => exact intPrintText ts
  | intInput d sp => exact intInput d sp
  | hlt sp => exact hlt sp
  | blankLine => exact blankLine

theorem decode_encode {i : Instr} (h : TextOk i) : decode (encode i) = .ok i := by
  rw [decode_eq, tokens_encode h]
  exact decodeTokens_tokens i h

/-! ### What a line decodes to has text the encoder can write -/

theorem textOk_of_wf {i : Instr} (h : i.wf = true) : TextOk i := by
  rintro ts rfl
  exact h

/-- The text of a print-text line is tokens of the line, the first of them not bracketed (R67). -/
theorem textOk_decodeInt {ts : List Token} (hts : ts.all tokenWf = true) : TextOk (decodeInt ts) := by
  intro text htext
  unfold decodeInt at htext
  split at htext
  · cases htext
  · split at htext
    · split at htext
      · cases htext
        rfl
      · split at htext
        · cases htext
        · rename_i hbracketed
          cases htext
          simp only [List.all_cons, Bool.and_eq_true] at hts
          simp [textWf, hts, hbracketed]
    · cases htext

theorem textOk_decodeFields (o : Opcode) {ts : List Token} (hts : ts.all tokenWf = true) :
    TextOk (decodeFields o ts) := by
  cases o with
  | int => exact textOk_decodeInt hts
  | _ => exact fun _ h => Instr.noConfusion h

theorem textOk_decodeTokens {toks : List Token} (htoks : toks.all tokenWf = true) {i : Instr}
    (h : decodeTokens toks = .ok i) : TextOk i := by
  cases toks with
  | nil => cases h; exact fun _ h => Instr.noConfusion h
  | cons t ts =>
    cases hs : selectOpcode t with
    | none => simp [decodeTokens, hs] at h
    | some o =>
      simp only [decodeTokens, hs, Except.ok.injEq] at h
      subst h
      exact textOk_decodeFields o (Bool.and_eq_true_iff.1 htoks).2

theorem textOk_decode {l : Line} {i : Instr} (h : decode l = .ok i) : TextOk i :=
  textOk_decodeTokens (List.all_eq_true.2 fun t ht => tokenWf_iff.2 (tokens_wf l t ht)) (decode_eq l ▸ h)

/-- Settles O14: the canonical line of a well-formed instruction has its canonical tokens, from which the decoder
reads it back. -/
theorem decodeUndoesEncode : Obligations.DecodeUndoesEncode :=
  fun _ hwf => decode_encode (textOk_of_wf hwf)

/-- Settles O15: print text that comes from a line can be written again; every other defect has a canonical
spelling. -/
theorem encodeOfDecodedLineDecodesTheSame : Obligations.EncodeOfDecodedLineDecodesTheSame :=
  fun _ _ hdecode => decode_encode (textOk_decode hdecode)

end Sys2Proof.Machine
end

section
/-! PROOFS. What a next state says of the instruction and the line it comes from, and that the relation `Effect`
determines what `exec` answers: the rules for good operands, one for each effect. -/

namespace Sys2Proof.Machine

/-! ### A next state -/

theorem exec_next_cases {i : Instr} {s t : State} (h : exec i s = .next t) :
    (∃ c, leftmost (operandConditions s.params i) = some c ∧ t = s.faultedBy c s.line) ∨ Effect s i (.next t) := by
  rcases exec_cases i s with ⟨c, hc, hfault⟩ | ⟨-, heffect⟩
  · cases h.symm.trans hfault
    exact .inl ⟨c, hc, rfl⟩
  · exact .inr (h ▸ heffect)

/-- A next state is the entry of a fatal condition, an effect of the decoded instruction, or the report of an
unknown line. -/
theorem step_next_cases {s t : State} (h : step s = .next t) : ∃ l, s.due l ∧ s.line = l ∧
    ((∃ i c, decode l = .ok i ∧ leftmost (operandConditions s.params i) = some c ∧ t = s.faultedBy c l) ∨
      (∃ i, decode l = .ok i ∧ Effect s i (.next t)) ∨
      ∃ u, decode l = .error (.unknownInstruction u) ∧ t = (s.report .unknownInstruction).advance) := by
  obtain ⟨l, hdue, rfl, ⟨i, hdecode, hexec⟩ | hunknown⟩ := due_of_next h
  · rcases exec_next_cases hexec with ⟨c, hc, ht⟩ | heffect
    · exact ⟨_, hdue, rfl, .inl ⟨i, c, hdecode, hc, ht⟩⟩
    · exact ⟨_, hdue, rfl, .inr (.inl ⟨i, hdecode, heffect⟩)⟩
  · exact ⟨_, hdue, rfl, .inr (.inr hunknown)⟩

/-! ### Good operands raise no condition -/

section
variable {s : State} {d : Dst} {a b : Src} {k : Nat} {x y : Int} {r : Line}

theorem operandsDSS_of_ok (hk : destCell s d = .ok k) (hx : resolve s a = .ok x) (hy : resolve s b = .ok y) :
    operandsDSS s d a b false = .ok (k, x, y) := by
  simp [operandsDSS, hk, hx, hy, noSurplus, bind, Except.bind, pure, Except.pure]

theorem operandD_of_ok (hk : destCell s d = .ok k) : operandD s d false = .ok k := by
  simp [operandD, hk, noSurplus, bind, Except.bind, pure, Except.pure]

theorem arith_of_ok (f : Int → Int → Int) (hk : destCell s d = .ok k) (hx : resolve s a = .ok x)
    (hy : resolve s b = .ok y) : arith f d a b false s = .next (s.writeCell k (f x y)).advance := by
  rw [arith, operandsDSS_of_ok hk hx hy, orRaise_ok]

theorem divide_of_ok (f : Int → Int → Int) (hk : destCell s d = .ok k) (hx : resolve s a = .ok x)
    (hy : resolve s b = .ok y) (h0 : y ≠ 0) :
    divide f d a b false s = .next (s.writeCell k (f x y)).advance := by
  rw [divide, operandsDSS_of_ok hk hx hy, orRaise_ok]
  exact if_neg h0

theorem exec_add_of_ok (hk : destCell s d = .ok k) (hx : resolve s a = .ok x) (hy : resolve s b = .ok y) :
    exec (.add d a b false) s = .next (s.writeCell k (wrap s.params.xlen (x + y))).advance :=
  arith_of_ok (fun x y => wrap s.params.xlen (x + y)) hk hx hy

theorem exec_sub_of_ok (hk : destCell s d = .ok k) (hx : resolve s a = .ok x) (hy : resolve s b = .ok y) :
    exec (.sub d a b false) s = .next (s.writeCell k (wrap s.params.xlen (x - y))).advance :=
  arith_of_ok (fun x y => wrap s.params.xlen (x - y)) hk hx hy

theorem exec_mul_of_ok (hk : destCell s d = .ok k) (hx : resolve s a = .ok x) (hy : resolve s b = .ok y) :
    exec (.mul d a b false) s = .next (s.writeCell k (wrap s.params.xlen (x * y))).advance :=
  arith_of_ok (fun x y => wrap s.params.xlen (x * y)) hk hx hy

theorem exec_div_of_ok (hk : destCell s d = .ok k) (hx : resolve s a = .ok x) (hy : resolve s b = .ok y)
    (h0 : y ≠ 0) : exec (.div d a b false) s = .next (s.writeCell k (wrap s.params.xlen (floorDiv x y))).advance :=
  divide_of_ok (fun x y => wrap s.params.xlen (floorDiv x y)) hk hx hy h0

theorem exec_mod_of_ok (hk : destCell s d = .ok k) (hx : resolve s a = .ok x) (hy : resolve s b = .ok y)
    (h0 : y ≠ 0) : exec (.mod d a b false) s = .next (s.writeCell k (floorMod x y)).advance :=
  divide_of_ok floorMod hk hx hy h0

theorem branch_of_ok (cond : Flags → Bool) (hx : resolve s a = .ok x) :
    branch cond a false s = .next (s.setPc (if cond s.flags then x else s.pc + 1)) :=
  branch_of_iff hx Iff.rfl

/-- A record that is not valid (R110) has been consumed when the condition is entered (R133). -/
theorem exec_intInput_of_bad_record (hk : destCell s d = .ok k) (hr : s.nextRecord = some r)
    (hv : inputValue s.params r = none) :
    exec (.intInput d false) s = .next (s.consume.faultedBy .invalidInput s.line) := by
  simp [exec, execIntInput, operandD_of_ok hk, orRaise_ok, hr, hv, raise_eq]

theorem exec_intInput_of_record (hk : destCell s d = .ok k) (hr : s.nextRecord = some r)
    (hv : inputValue s.params r = some x) :
    exec (.intInput d false) s = .next (s.consume.writeCell k x).advance := by
  simp [exec, execIntInput, operandD_of_ok hk, orRaise_ok, hr, hv]

end

/-- An effect is what the instruction does. -/
theorem exec_of_effect {s : State} {i : Instr} {r : Res} (h : Effect s i r) : exec i s = r := by
  cases h with
  | mov hk hx => exact exec_mov_of_ok hk hx
  | add hk hx hy => exact exec_add_of_ok hk hx hy
  | sub hk hx hy => exact exec_sub_of_ok hk hx hy
  | mul hk hx hy => exact exec_mul_of_ok hk hx hy
  | div hk hx hy h0 => exact exec_div_of_ok hk hx hy h0
  | mod hk hx hy h0 => exact exec_mod_of_ok hk hx hy h0
  | divZero hk hx hy => exact exec_of_zero_divisor (.inl rfl) hk hx hy
  | modZero hk hx hy => exact exec_of_zero_divisor (.inr rfl) hk hx hy
  | cmp hx hy => exact exec_cmp_of_ok hx hy
  | branch _ hexec hx => rw [hexec, branch_of_ok _ hx]
  | printValue hx => exact exec_intPrintValue_of_ok hx
  | printText => rfl
  | wait hk hr => exact exec_intInput_of_no_record hk hr
  | badInput hk hr hv => exact exec_intInput_of_bad_record hk hr hv
  | input hk hr hv => exact exec_intInput_of_record hk hr hv
  | hlt => rfl
  | blankLine => rfl

end Sys2Proof.Machine
end

section
/-! PROOFS. The invariant of the state: it holds at construction, each update of the state keeps it where an
instruction makes that update, and so every step keeps it. -/

namespace Sys2Proof.Machine

/-! ### Construction and delivery -/

theorem inv_construct {p : Params} (h : ParamsOk p) (input : List Line) : (State.construct p input).Inv where
  params_ok := h
  mem_wf := rfl
  mem_bound := by simp
  mem_range := by simp
  pc_range := inRange_zero p.xlen
  flags_legal := h.flagsReset_legal
  halted_pc := by simp
  fault_iff := by simp
  fault_here := by simp
  inpos_le := by simp
  out_range := by simp
  rep_line := by simp

/-- The defaults are admissible (R9 to R13). -/
theorem paramsOk_default : ParamsOk Params.default where
  xlen_pos := by decide
  memSize_pos := by decide
  progLen_range := by decide
  icHalt_range := by decide
  icHalt_noIndex := .inl (by decide)
  flagsReset_legal := by decide

namespace State.Inv

theorem deliver {s : State} (h : s.Inv) (r : Line) : (s.deliver r).Inv where
  __ := h
  inpos_le := by
    simp only [deliver_inpos, deliver_input, List.length_append]
    exact Nat.le_add_right_of_le h.inpos_le

/-! ### What the invariant says where a step is due -/

section
variable {s : State} (h : s.Inv)
include h

theorem fr_of_running (hr : s.rs = .running) : s.fr = none := by
  have hiff := h.fault_iff
  cases hfr : s.fr <;> simp_all

/-- The next `pc` is a machine integer, since the length of the program is one (R11). -/
theorem next_pc_range {l : Line} (hdue : s.due l) : inRange s.params.xlen (s.pc + 1) = true := by
  obtain ⟨-, h0, hlt⟩ := exists_due_iff.1 ⟨l, hdue⟩
  exact inRange_between (inRange_zero _) h.params_ok.progLen_range (by omega) (by omega)

theorem read_range (j : Nat) : inRange s.params.xlen (s.mem.read j) = true :=
  Memory.read_mem (P := fun v => inRange s.params.xlen v = true) (inRange_zero _) h.mem_range j

/-- An operand resolves to a machine integer (R75). -/
theorem resolve_range {a : Src} {x : Int} (hx : resolve s a = .ok x) : inRange s.params.xlen x = true := by
  cases a with
  | malformed => cases hx
  | imm v =>
    rw [resolve] at hx
    split at hx
    · cases hx; assumption
    · cases hx
  | cell i =>
    rw [resolve] at hx
    split at hx
    · cases hx; exact h.read_range _
    · cases hx

/-! ### The updates an instruction makes -/

theorem writeCell {k : Nat} {v : Int} (hk : k < s.params.memSize) (hv : inRange s.params.xlen v = true) :
    (s.writeCell k v).Inv where
  __ := h
  mem_wf := Memory.wf_write k v h.mem_wf
  mem_bound c hc := by
    rcases Memory.mem_write hc with rfl | hc
    · exact hk
    · exact h.mem_bound c hc
  mem_range c hc := by
    rcases Memory.mem_write hc with rfl | hc
    · exact hv
    · exact h.mem_range c hc

theorem setFlags {f : Flags} (hf : (f.less && f.equal) = false) : (s.setFlags f).Inv where
  __ := h
  flags_legal := hf

theorem setPc (hr : s.rs = .running) {v : Int} (hv : inRange s.params.xlen v = true) : (s.setPc v).Inv where
  __ := h
  pc_range := hv
  halted_pc hhalted := by cases hr.symm.trans hhalted
  fault_here r hfr := by cases (h.fr_of_running hr).symm.trans hfr

theorem advance {l : Line} (hdue : s.due l) : s.advance.Inv := h.setPc hdue.1 (h.next_pc_range hdue)

theorem halt (hr : s.rs = .running) : s.halt.Inv where
  __ := h
  pc_range := h.params_ok.icHalt_range
  halted_pc _ := rfl
  fault_iff := by simp [h.fr_of_running hr]
  fault_here r hfr := by cases (h.fr_of_running hr).symm.trans hfr

theorem emit {r : PrintRecord} (hr : ∀ v, r = .value v → inRange s.params.xlen v = true) : (s.emit r).Inv where
  __ := h
  out_range v hv := by
    rw [emit_out, List.mem_append, List.mem_singleton] at hv
    rcases hv with hv | hv
    · exact h.out_range v hv
    · exact hr v hv.symm
  rep_line r := by rw [emit_rep]; exact h.rep_line r

theorem report {l : Line} (hdue : s.due l) (c : Recoverable) : (s.report c).Inv where
  __ := h
  out_range v hv := h.out_range v (by rwa [report_out] at hv)
  rep_line r hr := by
    rw [report_rep, List.mem_append, List.mem_singleton] at hr
    rcases hr with hr | rfl
    · exact h.rep_line r hr
    · rw [due_line hdue]
      exact (fetch_eq_some s).1 hdue.2

theorem consume {r : Line} (hr : s.nextRecord = some r) : s.consume.Inv where
  __ := h
  inpos_le := (List.getElem?_eq_some_iff.1 hr).1

theorem faultedBy {l : Line} (hdue : s.due l) (c : Fatal) : (s.faultedBy c l).Inv where
  __ := h
  halted_pc hhalted := by cases hhalted
  fault_iff := by simp
  fault_here r hr := by
    cases hr
    exact ⟨rfl, hdue.2⟩

end

end State.Inv

/-! ### The effects -/

/-- A record that is valid denotes a machine integer (R110). -/
theorem inputValue_range {p : Params} {r : Line} {v : Int} (h : inputValue p r = some v) :
    inRange p.xlen v = true := by
  unfold inputValue at h
  split at h
  · split at h
    · cases h; assumption
    · cases h
  · cases h

/-- CMP never sets both flags (R23). -/
theorem compareFlags_legal (x y : Int) : ((compareFlags x y).less && (compareFlags x y).equal) = false := by
  simpa using fun h => Int.ne_of_lt h

/-- A write to a good destination and the advance behind it. -/
theorem State.Inv.writeCell_advance {s : State} (h : s.Inv) {l : Line} (hdue : s.due l) {d : Dst} {k : Nat}
    (hk : destCell s d = .ok k) {v : Int} (hv : inRange s.params.xlen v = true) : (s.writeCell k v).advance.Inv :=
  (h.writeCell (destCell_ok_condition hk).2 hv).advance (l := l) hdue

/-- What an instruction does with good operands keeps the invariant. -/
theorem Effect.inv {s t : State} {i : Instr} {l : Line} (h : s.Inv) (hdue : s.due l) (he : Effect s i (.next t)) :
    t.Inv := by
  cases he with
  | mov hk hx => exact h.writeCell_advance hdue hk (h.resolve_range hx)
  | add hk | sub hk | mul hk => exact h.writeCell_advance hdue hk (wrap_inRange _ _)
  | div hk => exact h.writeCell_advance hdue hk (wrap_inRange _ _)
  | mod hk _ hy h0 => exact h.writeCell_advance hdue hk (floorMod_inRange _ (h.resolve_range hy) h0)
  | divZero | modZero => exact (h.report hdue _).advance (l := l) hdue
  | cmp => exact (h.setFlags (compareFlags_legal _ _)).advance (l := l) hdue
  | branch _ _ hx =>
    refine h.setPc hdue.1 ?_
    split
    · exact h.resolve_range hx
    · exact h.next_pc_range hdue
  | printValue hx =>
    refine (h.emit ?_).advance (l := l) hdue
    rintro v ⟨⟩
    exact h.resolve_range hx
  | printText => exact (h.emit (by rintro v ⟨⟩)).advance (l := l) hdue
  | badInput _ hr =>
    rw [State.due_line hdue]
    exact (h.consume hr).faultedBy hdue _
  | input hk hr hv => exact (h.consume hr).writeCell_advance (l := l) hdue hk (inputValue_range hv)
  | hlt => exact h.halt hdue.1
  | blankLine => exact h.advance hdue

/-- Settles O59: entry of a fatal condition, every effect, and the report of an unknown line keep the invariant. -/
theorem stepKeepsInv : Obligations.StepKeepsInv := by
  unfold Obligations.StepKeepsInv
  intro s t h hstep
  obtain ⟨l, hdue, -, ⟨i, c, -, -, rfl⟩ | ⟨i, -, heffect⟩ | ⟨u, -, rfl⟩⟩ := step_next_cases hstep
  · exact h.faultedBy hdue c
  · exact heffect.inv h hdue
  · exact (h.report hdue _).advance (l := l) hdue

/-- Settles O58, from the admissible parameters, and because delivery only lengthens `INPUT`. -/
theorem invHoldsAtConstruction : Obligations.InvHoldsAtConstruction :=
  ⟨fun _ input hp => inv_construct hp input, inv_construct paramsOk_default [], fun _ r h => h.deliver r⟩

end Sys2Proof.Machine
end

section
/-! PROOFS. The decoder's string functions (30_encoding.md section 2), opcode selection, the fields of a line and
the form of an INT line (sections 3, 5 and 6). -/

namespace Sys2Proof.Machine

/-! ### Characters -/

theorem isSpace_iff {c : Char} : isSpace c = true ↔ c.toNat ∈ [0x09, 0x0A, 0x0B, 0x0C, 0x0D, 0x20] := by
  simp [isSpace, ← Char.toNat_inj, or_assoc]

theorem isDigit_iff {c : Char} : isDigit c = true ↔ c ∈ "0123456789".toList := by
  constructor
  · intro h
    have hall : ∀ n < 10, Char.ofNat (48 + n) ∈ "0123456789".toList := by decide
    simp only [isDigit, Bool.and_eq_true, decide_eq_true_eq] at h
    have hnumber : 48 + (c.toNat - 48) = c.toNat := by omega
    simpa only [hnumber, Char.ofNat_toNat] using hall (c.toNat - 48) (by omega)
  · have hall : "0123456789".toList.all isDigit = true := by decide
    exact List.all_eq_true.1 hall c

theorem isDigit_ne_sign {c : Char} (h : isDigit c = true) : c ≠ '-' ∧ c ≠ '+' := by
  constructor <;> rintro rfl <;> revert h <;> decide

/-- Settles O3: a character is told by its number. -/
theorem whitespaceIsSixCharacters : Obligations.WhitespaceIsSixCharacters := fun _ => isSpace_iff

/-- Settles O5, from the two laws of `Strip`; its corner cases by evaluation. -/
theorem stripTakesOneTrailingComma : Obligations.StripTakesOneTrailingComma :=
  ⟨strip_commaed, fun _ => strip_of_getLast, by decide⟩

/-! ### Integer literals -/

theorem parseInt_minus (ds : List Char) :
    parseInt ('-' :: ds) = (parseDigits ds).map fun n : Nat => -(n : Int) := rfl

theorem parseInt_plus (ds : List Char) :
    parseInt ('+' :: ds) = (parseDigits ds).map fun n : Nat => (n : Int) := rfl

theorem parseInt_unsigned {s : List Char} (hne : s ≠ []) (hminus : s.head? ≠ some '-') (hplus : s.head? ≠ some '+') :
    parseInt s = (parseDigits s).map fun n : Nat => (n : Int) := by
  cases s with
  | nil => exact absurd rfl hne
  | cons c ds =>
    simp only [List.head?_cons, ne_eq, Option.some.injEq] at hminus hplus
    simp [parseInt, hminus, hplus]

/-- A string of digits has no sign. -/
theorem parseInt_digits {ds : List Char} (hne : ds ≠ []) (hall : ∀ c ∈ ds, isDigit c = true) :
    parseInt ds = (parseDigits ds).map fun n : Nat => (n : Int) := by
  have hhead : ∀ c, ds.head? = some c → c ≠ '-' ∧ c ≠ '+' := fun c hc =>
    isDigit_ne_sign (hall c (List.mem_of_head? hc))
  exact parseInt_unsigned hne (fun h => (hhead _ h).1 rfl) (fun h => (hhead _ h).2 rfl)

/-- An integer literal is its digits with a sign in front or none. -/
theorem parseInt_cases {s : List Char} {v : Int} (h : parseInt s = some v) : ∃ ds n, parseDigits ds = some n ∧
    ((s = ds ∧ v = (n : Int)) ∨ (s = '+' :: ds ∧ v = (n : Int)) ∨ (s = '-' :: ds ∧ v = -(n : Int))) := by
  cases s with
  | nil => cases h
  | cons c ds =>
    by_cases hminus : c = '-'
    · subst hminus
      obtain ⟨n, hn, rfl⟩ := Option.map_eq_some_iff.1 (parseInt_minus ds ▸ h)
      exact ⟨ds, n, hn, .inr (.inr ⟨rfl, rfl⟩)⟩
    by_cases hplus : c = '+'
    · subst hplus
      obtain ⟨n, hn, rfl⟩ := Option.map_eq_some_iff.1 (parseInt_plus ds ▸ h)
      exact ⟨ds, n, hn, .inr (.inl ⟨rfl, rfl⟩)⟩
    rw [parseInt_unsigned (by simp) (by simpa using hminus) (by simpa using hplus)] at h
    obtain ⟨n, hn, rfl⟩ := Option.map_eq_some_iff.1 h
    exact ⟨c :: ds, n, hn, .inl ⟨rfl, rfl⟩⟩

/-- Settles O6: a literal splits into sign and digits by its first character, and a digit is no sign. -/
theorem parseIntReadsSignedDecimals : Obligations.ParseIntReadsSignedDecimals := by
  unfold Obligations.ParseIntReadsSignedDecimals
  refine ⟨fun s v => ⟨fun h => ?_, ?_⟩, fun _ => isDigit_iff, rfl, digitsValue_snoc⟩
  · obtain ⟨ds, n, hn, hform⟩ := parseInt_cases h
    obtain ⟨hne, hall, rfl⟩ := parseDigits_eq_some.1 hn
    exact ⟨ds, hne, hall, hform⟩
  · rintro ⟨ds, hne, hall, hform⟩
    have hds : parseDigits ds = some (digitsValue ds) := parseDigits_eq_some.2 ⟨hne, hall, rfl⟩
    rcases hform with ⟨rfl, rfl⟩ | ⟨rfl, rfl⟩ | ⟨rfl, rfl⟩
    · rw [parseInt_digits hne hall, hds, Option.map_some]
    · rw [parseInt_plus, hds, Option.map_some]
    · rw [parseInt_minus, hds, Option.map_some]

/-! ### Upper and Join -/

theorem upperChar_of_not_lower {c : Char} (h : c.toNat < 97 ∨ 122 < c.toNat) : upperChar c = c :=
  if_neg (by omega)

/-- Settles O7: the letters by evaluation, `Join` by its three defining cases. -/
theorem upperAndJoinWork : Obligations.UpperAndJoinWork :=
  ⟨by decide, fun _ => upperChar_of_not_lower, fun _ => rfl, fun _ => rfl, fun _ _ => rfl, fun _ _ _ _ => rfl⟩

/-! ### The opcode and the fields of a line -/

/-- Settles O8: `selectOpcode` searches the sixteen mnemonics for the whole token. -/
theorem mnemonicsAreMatchedExactly : Obligations.MnemonicsAreMatchedExactly :=
  ⟨fun _ _ => selectOpcode_eq_some, rfl, mem_all, by decide⟩

theorem decode_of_opcode {l : Line} (o : Opcode) {ts : List Token} (h : tokens l = o.token :: ts) :
    decode l = .ok (decodeFields o ts) := by
  rw [decode_eq, h, Laws.TokenRoundTrip.tokens_opcode]

/-- Settles O9: the first token selects the opcode, whose fields are the tokens behind it. -/
theorem fieldsAreTokensByPosition : Obligations.FieldsAreTokensByPosition := fun _ _ =>
  ⟨decode_of_opcode .mov, decode_of_opcode .add, decode_of_opcode .sub, decode_of_opcode .mul, decode_of_opcode .div,
    decode_of_opcode .mod, decode_of_opcode .cmp, decode_of_opcode .jmp, decode_of_opcode .jl, decode_of_opcode .jg,
    decode_of_opcode .jle, decode_of_opcode .jge, decode_of_opcode .je, decode_of_opcode .jne, decode_of_opcode .hlt⟩

/-! ### The form of an INT line -/

theorem decodeInt_of_print_alone {k : Token} (hk : upper k = keywordPrint) : decodeInt [k] = .intPrintText [] := by
  simp [decodeInt, hk]

theorem decodeInt_of_print_unbracketed {k t : Token} (hk : upper k = keywordPrint)
    (ht : isBracketed (strip t) = false) (more : List Token) :
    decodeInt (k :: t :: more) = .intPrintText (t :: more) := by
  simp [decodeInt, hk, ht]

theorem decodeInt_of_not_print {k : Token} (hk : upper k ≠ keywordPrint) (rest : List Token) :
    decodeInt (k :: rest) = .intInput (decodeDst rest[0]?) (decide (1 < rest.length)) := by
  simp [decodeInt, hk]

theorem decode_of_int {l : Line} {ts : List Token} (h : tokens l = "INT".toList :: ts) :
    decode l = .ok (decodeInt ts) := decode_of_opcode .int h

/-- Settles O10, by the form `decodeInt` chooses in each of its cases. -/
theorem intFormIsChosenByKeyword : Obligations.IntFormIsChosenByKeyword := by
  unfold Obligations.IntFormIsChosenByKeyword
  refine fun l => ⟨fun h => ?_, fun k h hk => ?_, fun k t more h hk ht => ?_, fun k t more h hk ht => ?_,
    fun k rest h hk => ?_⟩
  · exact decode_of_int h
  · rw [decode_of_int h, decodeInt_of_print_alone hk]
  · rw [decode_of_int h, decodeInt_of_print_bracketed hk ht]
  · rw [decode_of_int h, decodeInt_of_print_unbracketed hk ht]
  · rw [decode_of_int h, decodeInt_of_not_print hk]

/-- Settles O13: the decoder is a function of the tokens. -/
theorem decodeDependsOnTokensOnly : Obligations.DecodeDependsOnTokensOnly := fun l l' h => by
  rw [decode_eq, decode_eq, h]

/-- Settles O16, by running the decoder on the seven lines. -/
theorem sampleLinesDecode : Obligations.SampleLinesDecode := by
  unfold Obligations.SampleLinesDecode
  decide

end Sys2Proof.Machine
end

section
/-! PROOFS. The line of a table word laid for the next step (log entries 25 and 26), and that a step is the rule of
the decoded line. -/

namespace Sys2Proof.Machine

/-! ### The line laid at `pc` -/

theorem State.withFetchWord_of_line {s : State} (h : s.fetch ≠ none) (nbits w : Nat) :
    s.withFetchWord nbits w = { s with
      params := { s.params with program := s.params.program.set s.pc.toNat (tableLine nbits w) }
      rs := .running } := by
  obtain ⟨l, hl⟩ := Option.ne_none_iff_exists'.1 h
  simp [State.withFetchWord, State.withLine, hl]

theorem State.withFetchWord_of_no_line {s : State} (h : s.fetch = none) (nbits w : Nat) :
    s.withFetchWord nbits w = { s with
      params := { s.params with program := s.params.program ++ [tableLine nbits w] }
      pc := s.params.progLen
      rs := .running } := by
  simp [State.withFetchWord, State.withLine, h, Params.progLen]

theorem State.withFetchWord_due (s : State) (nbits w : Nat) :
    (s.withFetchWord nbits w).due (tableLine nbits w) := by
  by_cases h : s.fetch = none
  · rw [withFetchWord_of_no_line h]
    exact ⟨rfl, (fetch_eq_some _).2 (by simp [Params.progLen])⟩
  · rw [withFetchWord_of_line h]
    obtain ⟨h0, hlt⟩ : 0 ≤ s.pc ∧ s.pc < (s.params.progLen : Int) := by
      rw [fetch_eq_none] at h
      omega
    have hlen : s.pc.toNat < s.params.program.length := (Int.toNat_lt h0).2 hlt
    exact ⟨rfl, (fetch_eq_some _).2 ⟨h0, by simp [hlen]⟩⟩

theorem decode_of_decodeTableWord {nbits w : Nat} {i : Instr} (h : decodeTableWord nbits w = some i) :
    decode (tableLine nbits w) = .ok i := by
  unfold decodeTableWord at h
  split at h <;> simp_all

/-- Settles O17, by whether `pc` names a line. -/
theorem fetchWordIsWhatRunsNext : Obligations.FetchWordIsWhatRunsNext := by
  unfold Obligations.FetchWordIsWhatRunsNext
  refine fun s nbits w => ⟨s.withFetchWord_due nbits w, fun i hi => ?_, ?_⟩
  · exact step_of_decode (s.withFetchWord_due nbits w) (decode_of_decodeTableWord hi)
  · by_cases h : s.fetch = none
    · exact ⟨_, _, s.withFetchWord_of_no_line h nbits w, fun hne => absurd h hne, fun _ => ⟨rfl, rfl⟩⟩
    · exact ⟨_, _, s.withFetchWord_of_line h nbits w, fun _ => ⟨rfl, rfl⟩, fun heq => absurd heq h⟩

/-- Settles O43: the hypotheses say that a step of the line is due. -/
theorem stepRunsTheDecodedLine : Obligations.StepRunsTheDecodedLine :=
  fun s _ _ hr h0 hl hdecode => step_of_decode ⟨hr, s.fetch_eq_some.2 ⟨h0, hl⟩⟩ hdecode

end Sys2Proof.Machine
end

section
/-! PROOFS. `Resolve` (R75, R76): what a token decodes to, and which index the bounds check lets through. -/

namespace Sys2Proof.Machine

/-! ### The part of `Resolve` that looks at the token alone -/

theorem decodeSrc_of_bracketed {t : Token} {i : Int} (hb : isBracketed (strip t) = true)
    (hi : parseInt (inner (strip t)) = some i) : decodeSrc (some t) = .cell i := by simp [decodeSrc, hb, hi]

theorem decodeSrc_of_bad_index {t : Token} (hb : isBracketed (strip t) = true)
    (hi : parseInt (inner (strip t)) = none) : decodeSrc (some t) = .malformed := by simp [decodeSrc, hb, hi]

theorem decodeSrc_of_literal {t : Token} {v : Int} (hb : isBracketed (strip t) = false)
    (hv : parseInt (strip t) = some v) : decodeSrc (some t) = .imm v := by simp [decodeSrc, hb, hv]

theorem decodeSrc_of_bad_literal {t : Token} (hb : isBracketed (strip t) = false)
    (hv : parseInt (strip t) = none) : decodeSrc (some t) = .malformed := by simp [decodeSrc, hb, hv]

/-! ### The checks that depend on the parameters -/

theorem resolve_imm_of_not_inRange {s : State} {v : Int} (h : inRange s.params.xlen v = false) :
    resolve s (.imm v) = .error .malformedOperand := by simp [resolve, h]

/-- The bounds check of an index, which is a mathematical integer (R76). -/
theorem resolve_cell (s : State) (i : Int) : resolve s (.cell i) =
    if 0 ≤ i ∧ i < (s.params.memSize : Int) then .ok (s.mem.read i.toNat) else .error .outOfBoundsAddress := by
  split
  · rename_i h
    exact resolve_cell_of_inside h.1 h.2
  · exact resolve_cell_of_outside (by omega)

/-! ### `Resolve` of a token -/

theorem resolveToken_of_decodeSrc {s : State} {t : Option Token} {a : Src} (h : decodeSrc t = a) :
    resolveToken s t = resolve s a := by rw [resolveToken, h]

/-- Settles O18: the token is read as in `decodeSrc`, and its check is then passed or not. -/
theorem resolveReadsSourceTokens : Obligations.ResolveReadsSourceTokens := by
  unfold Obligations.ResolveReadsSourceTokens
  refine fun s => ⟨rfl, fun t => ⟨fun hb => ⟨fun hi => ?_, fun i hi => ⟨fun hout => ?_, fun h0 h1 => ?_⟩⟩,
    fun hb => ⟨fun hv => ?_, fun v hv => ⟨fun hout => ?_, fun hin => ?_⟩⟩⟩⟩
  · exact resolveToken_of_decodeSrc (decodeSrc_of_bad_index hb hi)
  · rw [resolveToken_of_decodeSrc (decodeSrc_of_bracketed hb hi), resolve_cell_of_outside hout]
  · rw [resolveToken_of_decodeSrc (decodeSrc_of_bracketed hb hi), resolve_cell_of_inside h0 h1]
  · exact resolveToken_of_decodeSrc (decodeSrc_of_bad_literal hb hv)
  · rw [resolveToken_of_decodeSrc (decodeSrc_of_literal hb hv), resolve_imm_of_not_inRange hout]
  · rw [resolveToken_of_decodeSrc (decodeSrc_of_literal hb hv), resolve_imm_of_inRange hin]

/-- Settles O20: `[2^64]` is read as the index 2^64, which no memory of at most 2^64 cells has. -/
theorem indexIsNeverReduced : Obligations.IndexIsNeverReduced := by
  refine ⟨fun s hm => ?_, resolve_cell⟩
  have hread : decodeSrc (some "[18446744073709551616]".toList) = .cell 18446744073709551616 := by decide
  rw [resolveToken_of_decodeSrc hread, resolve_cell_of_outside (.inr (by omega))]

end Sys2Proof.Machine
end

section
/-! PROOFS. Machine integers, floor division and Memory: `wrap` (R15), `floorDiv` and `floorMod` (R90), the canonical
form of Memory (log entry 24). -/

namespace Sys2Proof.Machine

/-! ### `wrap` -/

/-- `wrap` leaves a machine integer as it is. -/
theorem wrap_of_inRange {n : Nat} (hn : 1 ≤ n) {v : Int} (h : inRange (.bits n) v = true) : wrap (.bits n) v = v := by
  obtain ⟨hmin, hmax⟩ := inRange_bits.1 h
  have hdouble : (2 : Int) ^ n = 2 * 2 ^ (n - 1) := by
    rw [← pow_succ', Nat.sub_add_cancel hn]
  have hmod : (v + 2 ^ (n - 1)) % (2 : Int) ^ n = v + 2 ^ (n - 1) :=
    Int.emod_eq_of_lt (by omega) (by omega)
  simp [wrap, hmod]

/-- `wrap` does not tell apart integers that are congruent modulo `2^n`. -/
theorem wrap_add_mul (n : Nat) (v q : Int) : wrap (.bits n) (v + q * 2 ^ n) = wrap (.bits n) v := by
  simp only [wrap, Nat.cast_pow, Nat.cast_ofNat]
  rw [add_right_comm, Int.add_mul_emod_self_right]

theorem wrap_congruent (n : Nat) (v : Int) : ∃ q : Int, wrap (.bits n) v = v + q * 2 ^ n := by
  refine ⟨-((v + 2 ^ (n - 1)) / 2 ^ n), ?_⟩
  simp only [wrap, Nat.cast_pow, Nat.cast_ofNat]
  rw [Int.emod_def]
  ring

/-- Settles O24: of the integers congruent to `v`, `wrap` answers one in range, and leaves one in range as it is. -/
theorem wrapIsTheMachineInteger : Obligations.WrapIsTheMachineInteger := by
  refine ⟨fun n v hn => ⟨wrap_inRange _ v, wrap_congruent n v, fun u hu hq => ?_⟩, fun v => ⟨rfl, rfl⟩,
    fun _ _ => inRange_bits⟩
  obtain ⟨q, rfl⟩ := hq
  rw [← wrap_add_mul n v q, wrap_of_inRange hn hu]

/-! ### Floor quotient -/

/-- The quotient by a positive divisor lies between the dividend and 0. -/
theorem floorDiv_of_pos (a : Int) {b : Int} (hb : 0 < b) :
    (0 ≤ a → 0 ≤ floorDiv a b ∧ floorDiv a b ≤ a) ∧ (a < 0 → a ≤ floorDiv a b ∧ floorDiv a b < 0) := by
  have hmod := floorMod_of_pos a hb
  have hsum := floorDiv_add_floorMod a b
  refine ⟨fun ha => ?_, fun ha => ?_⟩ <;> constructor <;> nlinarith

/-- A divisor of at least 2 at least halves a dividend that is not negative. -/
theorem two_mul_floorDiv_le {a b : Int} (ha : 0 ≤ a) (hb : 2 ≤ b) : 2 * floorDiv a b ≤ a := by
  have hmod := floorMod_of_pos a (show 0 < b by omega)
  have hsum := floorDiv_add_floorMod a b
  have hq := ((floorDiv_of_pos a (show 0 < b by omega)).1 ha).1
  nlinarith

theorem floorDiv_neg_neg (a b : Int) : floorDiv (-a) (-b) = floorDiv a b := Int.neg_fdiv_neg a b

theorem floorDiv_neg_one (a : Int) : floorDiv a (-1) = -a := by
  rw [← floorDiv_neg_neg, floorDiv, neg_neg, Int.fdiv_one]

/-- The quotient is out of range only for `INT_MIN // -1` (R90). -/
theorem floorDiv_inRange {n : Nat} {a b : Int} (hb : b ≠ 0) (ha : inRange (.bits n) a = true) :
    inRange (.bits n) (floorDiv a b) = true ∨ a = intMin n ∧ b = -1 := by
  have hpos := two_pow_pos (n - 1)
  have hmin : intMin n = -2 ^ (n - 1) := by simp [intMin]
  rw [inRange_bits] at ha ⊢
  rcases (by omega : 0 < b ∨ b = -1 ∨ 2 ≤ -b) with hb | rfl | hb
  · have hbetween := floorDiv_of_pos a hb
    omega
  · rw [floorDiv_neg_one]
    omega
  · have hbetween := floorDiv_of_pos (-a) (show 0 < -b by omega)
    have hhalf := fun h => two_mul_floorDiv_le (a := -a) h hb
    rw [floorDiv_neg_neg] at hbetween hhalf
    omega

/-- Settles O25: the bounds of the remainder give those of the quotient, and the range of both. -/
theorem floorQuotientAndRemainder : Obligations.FloorQuotientAndRemainder := by
  unfold Obligations.FloorQuotientAndRemainder
  refine ⟨fun a b _ => ?_, fun w a b h0 ha hb => ⟨floorMod_inRange a hb h0, ?_⟩⟩
  · have hsum := floorDiv_add_floorMod a b
    refine ⟨hsum, fun hb => ?_, fun hb => ?_, floorMod_of_pos a, floorMod_of_neg a⟩
    · have hmod := floorMod_of_pos a hb
      constructor <;> linarith
    · have hmod := floorMod_of_neg a hb
      constructor <;> linarith
  · cases w with
    | unbounded => exact .inl rfl
    | bits n => exact (floorDiv_inRange h0 ha).imp_right fun ⟨hmin, hb1⟩ => ⟨n, rfl, hmin, hb1⟩

/-! ### Memory -/

/-- In a canonical memory the cells up to the first listed one read as after reset. -/
theorem Memory.read_of_lt {m : Memory} {j : Nat} (h : ∀ c ∈ m, j < c.1) : m.read j = resetCell :=
  Memory.read_of_not_listed fun c hc => Nat.ne_of_gt (h c hc)

/-- A canonical memory that lists a cell below all those another lists has other contents. -/
theorem Memory.read_cons_ne {i : Nat} {v : Int} {rest n : Memory} (hw : Memory.wf ((i, v) :: rest) = true)
    (h : ∀ c ∈ n, i < c.1) : Memory.read ((i, v) :: rest) i ≠ n.read i := by
  obtain ⟨hv, -, -⟩ := (Memory.wf_cons i v rest).1 hw
  rwa [Memory.read_cons, if_pos rfl, Memory.read_of_lt h]

/-- In a canonical memory every listed cell lies at or behind the first. -/
theorem Memory.forall_lt_of_head_lt {i j : Nat} {v : Int} {rest : Memory}
    (hw : Memory.wf ((j, v) :: rest) = true) (h : i < j) : ∀ c ∈ (j, v) :: rest, i < c.1 := by
  obtain ⟨-, hlt, -⟩ := (Memory.wf_cons j v rest).1 hw
  exact List.forall_mem_cons.2 ⟨h, fun c hc => Nat.lt_trans h (hlt c hc)⟩

/-- Equal contents behind an equal first cell are equal contents. -/
theorem Memory.read_tail_eq {i : Nat} {v : Int} {r r' : Memory} (hr : ∀ c ∈ r, i < c.1) (hr' : ∀ c ∈ r', i < c.1)
    (h : ∀ j, Memory.read ((i, v) :: r) j = Memory.read ((i, v) :: r') j) (j : Nat) : r.read j = r'.read j := by
  by_cases hij : i = j
  · subst hij
    rw [Memory.read_of_lt hr, Memory.read_of_lt hr']
  · simpa [Memory.read_cons, hij] using h j

/-- Canonical memories are determined by what they read. -/
theorem Memory.ext_read {m n : Memory} (hm : m.wf = true) (hn : n.wf = true) (h : ∀ j, m.read j = n.read j) :
    m = n := by
  induction m generalizing n with
  | nil =>
    cases n with
    | nil => rfl
    | cons c r => exact absurd (h c.1).symm (Memory.read_cons_ne hn (by simp))
  | cons c r ih =>
    obtain ⟨i, v⟩ := c
    cases n with
    | nil => exact absurd (h i) (Memory.read_cons_ne hm (by simp))
    | cons c' r' =>
      obtain ⟨j, w⟩ := c'
      rcases Nat.lt_trichotomy i j with hij | rfl | hij
      · exact absurd (h i) (Memory.read_cons_ne hm (Memory.forall_lt_of_head_lt hn hij))
      · obtain ⟨-, hr, hwr⟩ := (Memory.wf_cons i v r).1 hm
        obtain ⟨-, hr', hwr'⟩ := (Memory.wf_cons i w r').1 hn
        obtain rfl : v = w := by simpa [Memory.read_cons] using h i
        rw [ih hwr hwr' (Memory.read_tail_eq hr hr' h)]
      · exact absurd (h j).symm (Memory.read_cons_ne hn (Memory.forall_lt_of_head_lt hm hij))

/-- Settles O26, from the laws of `Memory.write`. -/
theorem readGivesMostRecentWrite : Obligations.ReadGivesMostRecentWrite := fun m i v hw =>
  ⟨Memory.wf_write i v hw, by simp [Memory.read_write hw], fun _ hj => Memory.read_write_ne m v hj.symm⟩

/-- Settles O27: the first cell that two canonical memories list is the same, and so is the rest. -/
theorem equalContentsAreEqualMemories : Obligations.EqualContentsAreEqualMemories := fun _ _ => Memory.ext_read

end Sys2Proof.Machine
end

section
/-! PROOFS. ADD, SUB, MUL, DIV and MOD (41_move_arith.md): the stored results, the faults, the tables of the spec, and
a destination that is also a source (R81). -/

namespace Sys2Proof.Machine

/-- Settles O29: the results by the rules for good operands, the faults by the leftmost condition. -/
theorem addSubMulStoreTheWrappedResult : Obligations.AddSubMulStoreTheWrappedResult := fun _ _ _ _ =>
  ⟨fun _ _ _ hk hx hy => ⟨exec_add_of_ok hk hx hy, exec_sub_of_ok hk hx hy, exec_mul_of_ok hk hx hy⟩,
    fun _ _ hc => ⟨exec_of_condition hc, exec_of_condition hc, exec_of_condition hc⟩⟩

/-- Settles O30: the floored remainder is `Int.fmod`, and the faults are those of the operands alone. -/
theorem divModStoreFloorResults : Obligations.DivModStoreFloorResults := by
  unfold Obligations.DivModStoreFloorResults
  refine fun s d a b => ⟨fun k x y hk hx hy h0 => ⟨exec_div_of_ok hk hx hy h0, ?_⟩,
    fun _ _ hc => ⟨exec_of_condition hc, exec_of_condition hc⟩⟩
  rw [exec_mod_of_ok hk hx hy h0, floorMod_eq_fmod]
  rfl

/-! ### The tables at `XLEN = 64` -/

/-- A row of a table: two machine integers of 64 bits, and what `f` makes of them. -/
def tableRow (f : Int → Int → Int) (e : Int × Int × Int) : Bool :=
  inRange (.bits 64) e.1 && inRange (.bits 64) e.2.1 && f e.1 e.2.1 == e.2.2

theorem tableRow_iff {f : Int → Int → Int} {e : Int × Int × Int} : tableRow f e = true ↔
    inRange (.bits 64) e.1 = true ∧ inRange (.bits 64) e.2.1 = true ∧ f e.1 e.2.1 = e.2.2 := by
  simp [tableRow, and_assoc]

/-- The effect of a three-operand instruction on a cell, where its result is read off a row. -/
theorem exec_of_tableRow {s : State} {i : Int} {e : Int × Int × Int} {instr : Instr} {f : Int → Int → Int}
    (h64 : s.params.xlen = .bits 64) (h0 : 0 ≤ i) (h1 : i < (s.params.memSize : Int))
    (hexec : ∀ k, destCell s (.cell i) = .ok k → resolve s (.imm e.1) = .ok e.1 →
      resolve s (.imm e.2.1) = .ok e.2.1 → exec instr s = .next (s.writeCell k (f e.1 e.2.1)).advance)
    (hrow : tableRow f e = true) :
    exec instr s = .next { s with mem := s.mem.write i.toNat e.2.2, pc := s.pc + 1 } := by
  obtain ⟨ha, hb, hr⟩ := tableRow_iff.1 hrow
  rw [← hr]
  exact hexec _ (destCell_of_inside h0 h1) (resolve_imm_of_inRange (h64.symm ▸ ha))
    (resolve_imm_of_inRange (h64.symm ▸ hb))

section
variable {s : State} {i : Int} (h64 : s.params.xlen = .bits 64) (h0 : 0 ≤ i) (h1 : i < (s.params.memSize : Int))
  {e : Int × Int × Int}
include h64 h0 h1

theorem exec_add_of_tableRow (hrow : tableRow (fun x y => wrap (.bits 64) (x + y)) e = true) :
    exec (.add (.cell i) (.imm e.1) (.imm e.2.1) false) s =
      .next { s with mem := s.mem.write i.toNat e.2.2, pc := s.pc + 1 } :=
  exec_of_tableRow h64 h0 h1 (fun _ hk hx hy => by rw [exec_add_of_ok hk hx hy, h64]) hrow

theorem exec_sub_of_tableRow (hrow : tableRow (fun x y => wrap (.bits 64) (x - y)) e = true) :
    exec (.sub (.cell i) (.imm e.1) (.imm e.2.1) false) s =
      .next { s with mem := s.mem.write i.toNat e.2.2, pc := s.pc + 1 } :=
  exec_of_tableRow h64 h0 h1 (fun _ hk hx hy => by rw [exec_sub_of_ok hk hx hy, h64]) hrow

theorem exec_mul_of_tableRow (hrow : tableRow (fun x y => wrap (.bits 64) (x * y)) e = true) :
    exec (.mul (.cell i) (.imm e.1) (.imm e.2.1) false) s =
      .next { s with mem := s.mem.write i.toNat e.2.2, pc := s.pc + 1 } :=
  exec_of_tableRow h64 h0 h1 (fun _ hk hx hy => by rw [exec_mul_of_ok hk hx hy, h64]) hrow

theorem exec_div_of_tableRow (hb : e.2.1 ≠ 0)
    (hrow : tableRow (fun x y => wrap (.bits 64) (floorDiv x y)) e = true) :
    exec (.div (.cell i) (.imm e.1) (.imm e.2.1) false) s =
      .next { s with mem := s.mem.write i.toNat e.2.2, pc := s.pc + 1 } :=
  exec_of_tableRow h64 h0 h1 (fun _ hk hx hy => by rw [exec_div_of_ok hk hx hy hb, h64]) hrow

theorem exec_mod_of_tableRow (hb : e.2.1 ≠ 0) (hrow : tableRow floorMod e = true) :
    exec (.mod (.cell i) (.imm e.1) (.imm e.2.1) false) s =
      .next { s with mem := s.mem.write i.toNat e.2.2, pc := s.pc + 1 } :=
  exec_of_tableRow h64 h0 h1 (fun _ hk hx hy => exec_mod_of_ok hk hx hy hb) hrow

end

/-- A row of the table of DIV and MOD: operands, floor quotient, floored remainder. -/
def divModRow (e : Int × Int × Int × Int) : Bool :=
  e.2.1 != 0 && tableRow (fun x y => wrap (.bits 64) (floorDiv x y)) (e.1, e.2.1, e.2.2.1) &&
    tableRow floorMod (e.1, e.2.1, e.2.2.2)

theorem divModRow_iff {e : Int × Int × Int × Int} : divModRow e = true ↔ e.2.1 ≠ 0 ∧
    tableRow (fun x y => wrap (.bits 64) (floorDiv x y)) (e.1, e.2.1, e.2.2.1) = true ∧
    tableRow floorMod (e.1, e.2.1, e.2.2.2) = true := by
  simp [divModRow, and_assoc]

/-- Settles O32: every row of the tables holds by evaluation, and an instruction stores what its row says. -/
theorem arithmeticCornerCases : Obligations.ArithmeticCornerCases := by
  unfold Obligations.ArithmeticCornerCases
  refine fun s i h64 h0 h1 => ⟨fun e he => ?_, fun e he => ?_, fun e he => ?_, fun e he => ?_⟩
  · exact exec_add_of_tableRow h64 h0 h1 (List.all_eq_true.1 (by decide) e he)
  · exact exec_sub_of_tableRow h64 h0 h1 (List.all_eq_true.1 (by decide) e he)
  · exact exec_mul_of_tableRow h64 h0 h1 (List.all_eq_true.1 (by decide) e he)
  · obtain ⟨hb, hdiv, hmod⟩ := divModRow_iff.1 (List.all_eq_true.1 (by decide) e he)
    exact ⟨exec_div_of_tableRow (e := (e.1, e.2.1, e.2.2.1)) h64 h0 h1 hb hdiv,
      exec_mod_of_tableRow (e := (e.1, e.2.1, e.2.2.2)) h64 h0 h1 hb hmod⟩

/-! ### A destination that is also a source -/

/-- `SUB [i], [i], v` where `v` is no machine integer, as 1 is none at a width of one bit. -/
theorem exec_sub_of_bad_imm {s : State} {i v : Int} {k : Nat} (hk : destCell s (.cell i) = .ok k)
    (hv : inRange s.params.xlen v = false) :
    exec (.sub (.cell i) (.cell i) (.imm v) false) s = .next (s.faultedBy .malformedOperand s.line) :=
  exec_of_condition (by
    simp [operandConditions, (destCell_ok_condition hk).1, resolve_ok_condition (resolve_cell_of_destCell hk),
      resolve_error_condition (resolve_imm_of_not_inRange hv), leftmost])

/-- The rule's example: `SUB [0], [0], 1` on a cell that holds 4 leaves 3. -/
theorem exec_sub_example {s : State} (h64 : s.params.xlen = .bits 64) (hm : 1 ≤ s.params.memSize)
    (hw : s.mem.wf = true) (h4 : s.mem.read 0 = 4) :
    ∃ t, exec (.sub (.cell 0) (.cell 0) (.imm 1) false) s = .next t ∧ t.mem.read 0 = 3 := by
  have hk : destCell s (.cell 0) = .ok 0 := destCell_of_inside (by decide) (Int.ofNat_lt.2 hm)
  have h1 : resolve s (.imm 1) = .ok 1 := resolve_imm_of_inRange (h64.symm ▸ (by decide))
  have hwrap : wrap (.bits 64) 3 = 3 := by decide
  exact ⟨_, exec_sub_of_ok hk (resolve_cell_of_destCell hk) h1, by simp [Memory.read_write hw, h4, h64, hwrap]⟩

/-- Settles O21: the sources are resolved in the state before the write. -/
theorem operandsAreReadBeforeTheWrite : Obligations.OperandsAreReadBeforeTheWrite := by
  unfold Obligations.OperandsAreReadBeforeTheWrite
  refine ⟨fun s i k x hw hk hread => ?_, fun s h64 hm hw h4 => exec_sub_example h64 hm hw h4⟩
  have hx : resolve s (.cell i) = .ok x := hread ▸ resolve_cell_of_destCell hk
  refine ⟨?_, exec_add_of_ok hk hx hx, exec_mov_same_cell hw hk⟩
  split
  · exact exec_sub_of_ok hk hx (resolve_imm_of_inRange ‹_›)
  · exact exec_sub_of_bad_imm hk (Bool.eq_false_iff.2 ‹_›)

end Sys2Proof.Machine
end

section
/-! PROOFS. Conditions (R70, R79, R135): an instruction has none exactly when it is well-formed and fits the
parameters; with none it faults only on an input record that is not valid. -/

namespace Sys2Proof.Machine

/-! ### Operands without a condition -/

theorem leftmost_cons_eq_none {c : Option Fatal} {cs : List (Option Fatal)} :
    leftmost (c :: cs) = none ↔ c = none ∧ leftmost cs = none := by
  cases c <;> simp [leftmost]

theorem srcCondition_eq_none {p : Params} {a : Src} :
    srcCondition p a = none ↔ a.wf = true ∧ srcFits p a = true := by
  cases a with
  | imm v => simp [srcCondition, Src.wf, srcFits]
  | cell i => simp [srcCondition, Src.wf, srcFits, inMemory_iff]
  | malformed => simp [srcCondition, Src.wf]

theorem dstCondition_eq_none {p : Params} {d : Dst} :
    dstCondition p d = none ↔ d.wf = true ∧ dstFits p d = true := by
  cases d with
  | cell i => simp [dstCondition, Dst.wf, dstFits, inMemory_iff]
  | invalid => simp [dstCondition, Dst.wf]

theorem refCondition_eq_none {p : Params} {r : Ref} :
    refCondition p r = none ↔ r.wf = true ∧ srcFits p (refSrc r) = true := by
  rw [refCondition_eq, srcCondition_eq_none]
  cases r <;> rfl

theorem surplusCondition_eq_none {sp : Bool} : surplusCondition sp = none ↔ sp = false := by
  cases sp <;> decide

/-- An instruction that a line decodes to raises no condition exactly when it is well-formed and fits (R70). -/
theorem leftmost_eq_none_iff {p : Params} {i : Instr} (htext : TextOk i) :
    leftmost (operandConditions p i) = none ↔ (i.wf && instrFits p i) = true := by
  cases i with
  | intPrintText ts => simp [operandConditions, leftmost, Instr.wf, instrFits, htext ts rfl]
  | _ =>
    simp [operandConditions, leftmost, leftmost_cons_eq_none, dstCondition_eq_none, srcCondition_eq_none,
      refCondition_eq_none, surplusCondition_eq_none, Instr.wf, instrFits] <;> tauto

/-! ### What an effect does to the run state -/

/-- An effect leaves the fault record, and the run state but for HLT; the one that faults is the input form on a
record that is not valid. -/
theorem Effect.runState_cases {s t : State} {i : Instr} (h : Effect s i (.next t)) :
    (t.fr = s.fr ∧ (i ≠ .hlt false ∧ t.rs = s.rs ∨ i = .hlt false ∧ t.rs = .halted)) ∨
    ((∃ d r, i = .intInput d false ∧ s.nextRecord = some r ∧ inputValue s.params r = none) ∧
      t = s.consume.faultedBy .invalidInput s.line) := by
  cases h with
  | badInput _ hr hv => exact .inr ⟨⟨_, _, rfl, hr, hv⟩, rfl⟩
  | hlt => exact .inl ⟨rfl, .inr ⟨rfl, rfl⟩⟩
  | branch hbranch =>
    refine .inl ⟨rfl, .inl ⟨?_, rfl⟩⟩
    rintro rfl
    cases hbranch
  | _ => exact .inl ⟨rfl, .inl ⟨by simp, rfl⟩⟩

/-- Settles O22: the inversion lemma of `exec`, and what an effect does to the run state. -/
theorem leftmostConditionIsRaised : Obligations.LeftmostConditionIsRaised := by
  unfold Obligations.LeftmostConditionIsRaised
  refine fun i s => ⟨fun c => exec_of_condition, fun hnone hinput => ?_⟩
  obtain ⟨t, ht⟩ : ∃ t, exec i s = .next t :=
    (exec_next_or_wait i s).resolve_right fun ⟨d, _, hi, _⟩ => hinput d false hi
  rcases exec_next_cases ht with ⟨c, hc, -⟩ | heffect
  · cases hnone.symm.trans hc
  · rcases heffect.runState_cases with ⟨hfr, hrs⟩ | ⟨⟨d, _, hi, _⟩, -⟩
    · exact ⟨t, ht, hfr, hrs.imp_left And.right⟩
    · exact absurd hi (hinput d false)

/-- The state after a good instruction is Faulted only by a record that is not valid (R133). -/
theorem Effect.faulted_iff {s t : State} {i : Instr} (h : Effect s i (.next t)) (hrun : s.rs = .running) :
    t.rs = .faulted ↔ ∃ d r, i = .intInput d false ∧ s.nextRecord = some r ∧ inputValue s.params r = none := by
  constructor
  · intro hfaulted
    rcases h.runState_cases with ⟨-, ⟨-, hrs⟩ | ⟨-, hrs⟩⟩ | ⟨hbad, -⟩
    · cases hrun.symm.trans (hrs.symm.trans hfaulted)
    · cases hrs.symm.trans hfaulted
    · exact hbad
  · rintro ⟨d, r, rfl, hr, hv⟩
    cases h with
    | branch hbranch => cases hbranch
    | badInput => rfl
    | input _ hr' hv' =>
      cases hr.symm.trans hr'
      cases hv.symm.trans hv'

/-- Settles O23: a condition is a defect (R70), and without one only a record that is not valid faults. -/
theorem stepFaultsExactlyOnDefects : Obligations.StepFaultsExactlyOnDefects := by
  unfold Obligations.StepFaultsExactlyOnDefects
  intro s l i hdue hdecode
  have hnone := leftmost_eq_none_iff (p := s.params) (textOk_decode hdecode)
  rw [step_of_decode hdue hdecode]
  rcases exec_cases i s with ⟨c, hc, hfault⟩ | ⟨hgood, heffect⟩
  · refine iff_of_true ⟨_, hfault, rfl⟩ (.inl (Bool.eq_false_iff.2 fun hwf => ?_))
    cases hc.symm.trans (hnone.2 hwf)
  · simp only [hnone.1 hgood, reduceCtorEq, false_or]
    constructor
    · rintro ⟨t, ht, hfaulted⟩
      exact ((ht ▸ heffect).faulted_iff hdue.1).1 hfaulted
    · rintro ⟨d, r, rfl, hr, hv⟩
      obtain ⟨k, hk⟩ : ∃ k, destCell s d = .ok k := by
        rcases destCell_cases s d with ⟨hd, -⟩ | ⟨-, k, hk, -⟩
        · simp [operandConditions, hd, leftmost] at hgood
        · exact ⟨k, hk⟩
      exact ⟨_, exec_intInput_of_bad_record hk hr hv, rfl⟩

end Sys2Proof.Machine
end

section
/-! PROOFS. Branches (43_branch.md) and HLT (45_halt_nop_unknown.md). -/

namespace Sys2Proof.Machine

/-- Settles O35: the seven branches differ in their condition alone. -/
theorem branchesLoadTargetOrAdvance : Obligations.BranchesLoadTargetOrAdvance := by
  unfold Obligations.BranchesLoadTargetOrAdvance
  refine fun s t z hz => ⟨branch_of_ok condAlways hz, branch_of_iff hz ?_, branch_of_iff hz ?_, branch_of_iff hz ?_,
    branch_of_iff hz ?_, branch_of_iff hz ?_, branch_of_iff hz ?_⟩ <;> exact Iff.rfl

/-- Settles O36: the jump loads the target, and a running machine outside its program has completed (R122). -/
theorem jumpOutOfTheProgramCompletes : Obligations.JumpOutOfTheProgramCompletes := by
  unfold Obligations.JumpOutOfTheProgramCompletes
  intro s l t z hdue hdecode hz hout
  have hfetch : State.fetch { s with pc := z } = none := (State.fetch_eq_none _).2 hout
  have hstep : step s = .next { s with pc := z } := by
    rw [step_of_decode hdue hdecode]
    exact branch_of_ok condAlways hz
  exact ⟨_, hstep, rfl, hdue.1, signal_of_outside hdue.1 hfetch, step_of_outside hdue.1 hfetch⟩

/-- Settles O42: HLT has the surplus check and nothing else in front of its effect. -/
theorem hltHalts : Obligations.HltHalts := fun s => ⟨execHlt_eq false s, execHlt_eq true s⟩

end Sys2Proof.Machine
end

section
/-! PROOFS. INT, print-text and input form (44_io.md R107 to R110). -/

namespace Sys2Proof.Machine

theorem exec_intPrintText (ts : List Token) (s : State) :
    exec (.intPrintText ts) s = .next (s.emit (.text (join [' '] ts))).advance := rfl

/-- Settles O38: the form has one effect and no condition; the rule's line by running the decoder. -/
theorem printTextEmitsTheTokens : Obligations.PrintTextEmitsTheTokens := by
  unfold Obligations.PrintTextEmitsTheTokens
  refine ⟨fun s ts => exec_intPrintText ts s, fun s => ⟨_, exec_intPrintText [] s, by simp [join]⟩,
    fun s hdue => ?_⟩
  have hdecode : decode "INT PRINT   hello,   world".toList =
      .ok (.intPrintText ["hello,".toList, "world".toList]) := by decide
  have htext : join [' '] ["hello,".toList, "world".toList] = "hello, world".toList := by decide
  rw [step_of_decode hdue hdecode]
  exact ⟨_, exec_intPrintText _ s, by rw [State.advance_out, State.emit_out, htext]⟩

/-! ### The value of a record -/

theorem inputValue_of_inRange {p : Params} {r : Line} {v : Int} (hv : parseInt (trim r) = some v)
    (hin : inRange p.xlen v = true) : inputValue p r = some v := by simp [inputValue, hv, hin]

theorem inputValue_eq_none {p : Params} {r : Line}
    (h : parseInt (trim r) = none ∨ ∃ v, parseInt (trim r) = some v ∧ inRange p.xlen v = false) :
    inputValue p r = none := by
  rcases h with h | ⟨v, hv, hout⟩
  · simp [inputValue, h]
  · simp [inputValue, hv, hout]

/-- A good destination and a record: the record is consumed, valid or not. -/
theorem exec_intInput_consumes {s : State} {d : Dst} {k : Nat} {r : Line} (hk : destCell s d = .ok k)
    (hr : s.nextRecord = some r) : ∃ t, exec (.intInput d false) s = .next t ∧ t.inpos = s.inpos + 1 := by
  cases hv : inputValue s.params r with
  | none => exact ⟨_, exec_intInput_of_bad_record hk hr hv, rfl⟩
  | some v => exact ⟨_, exec_intInput_of_record hk hr hv, rfl⟩

/-- Settles O39, by the rule for a valid record and the leftmost condition. -/
theorem inputStoresTheRecord : Obligations.InputStoresTheRecord :=
  ⟨fun _ _ _ _ _ hk hr hv hin => exec_intInput_of_record hk hr (inputValue_of_inRange hv hin),
    fun _ _ _ _ hc => exec_of_condition hc⟩

/-- Settles O40: in both cases the record has no value. -/
theorem invalidInputIsConsumed : Obligations.InvalidInputIsConsumed := fun _ _ _ _ hk hr hbad =>
  exec_intInput_of_bad_record hk hr (inputValue_eq_none hbad)

/-! ### The wait -/

/-- The wait is for a record, and for nothing else (R109). -/
theorem step_waiting_iff {s : State} : step s = .fault .waitingForInput ↔ s.waits := by
  refine ⟨fun h => ?_, step_of_waits⟩
  by_cases hdue : ∃ l, s.due l
  · obtain ⟨l, hl⟩ := hdue
    rcases step_next_or_waits_of_due hl with ⟨t, ht⟩ | hwaits
    · cases h.symm.trans ht
    · exact hwaits
  · obtain ⟨f, hf, hne⟩ := step_fault_of_not_due (not_exists.1 hdue)
    cases h.symm.trans hf
    exact absurd rfl hne

/-- The delivered record is the next one, where all records before it have been consumed. -/
theorem State.nextRecord_deliver {s : State} (h : s.inpos = s.input.length) (r : Line) :
    (s.deliver r).nextRecord = some r := by
  simp [State.nextRecord, h]

/-- Settles O41: a waiting state lacks a record and nothing else. -/
theorem inputWaitsForARecord : Obligations.InputWaitsForARecord := by
  refine ⟨fun _ _ _ => exec_intInput_of_no_record, fun _ => step_waiting_iff, fun s r hwaits hall => ?_⟩
  obtain ⟨l, d, k, hdue, hdecode, hk, -⟩ := hwaits
  rw [step_of_decode ((s.deliver_due r l).2 hdue) hdecode]
  exact exec_intInput_consumes ((destCell_congr_params (s.deliver_params r) d).trans hk) (s.nextRecord_deliver hall r)

end Sys2Proof.Machine
end

section
/-! PROOFS. The end of a run and its signal (46_engine_loop.md section 4), and the state at construction
(70_reset_and_hazards.md section 1). -/

namespace Sys2Proof.Machine

/-- Every way a step can turn out: the run has ended in one of three ways, or a step is due, which is taken or
waits. -/
theorem step_outcome (s : State) :
    (s.rs = .halted ∧ step s = .fault .runHalted) ∨ (s.rs = .faulted ∧ step s = .fault .runFaulted) ∨
    (s.rs = .running ∧ s.fetch = none ∧ step s = .fault .runCompleted) ∨
    (s.rs = .running ∧ s.fetch ≠ none ∧ ((∃ t, step s = .next t) ∨ step s = .fault .waitingForInput)) := by
  cases hrs : s.rs with
  | halted => exact .inl ⟨rfl, step_of_halted hrs⟩
  | faulted => exact .inr (.inl ⟨rfl, step_of_faulted hrs⟩)
  | running =>
    cases hfetch : s.fetch with
    | none => exact .inr (.inr (.inl ⟨rfl, rfl, step_of_outside hrs hfetch⟩))
    | some l =>
      exact .inr (.inr (.inr ⟨rfl, by simp, (step_next_or_waits_of_due ⟨hrs, hfetch⟩).imp_right step_of_waits⟩))

/-- Settles O45, by the ways a step can turn out. -/
theorem noStepIsNamed : Obligations.NoStepIsNamed := by
  unfold Obligations.NoStepIsNamed
  intro s
  rw [← State.fetch_eq_none]
  rcases step_outcome s with ⟨hrs, h⟩ | ⟨hrs, h⟩ | ⟨hrs, hfetch, h⟩ | ⟨hrs, hfetch, ⟨t, h⟩ | h⟩
  · simp [hrs, h]
  · simp [hrs, h]
  · simp [hrs, hfetch, h]
  · simp [hrs, hfetch, h]
  · simp [hrs, hfetch, h]

theorem State.signal_of_due {s : State} {l : Line} (h : s.due l) : s.signal = none := by
  simp [State.signal, h.1, h.2]

/-- Settles O47, by the run state; under the invariant a faulted machine has its record. -/
theorem signalOfTheFinalState : Obligations.SignalOfTheFinalState := by
  unfold Obligations.SignalOfTheFinalState
  intro s hinv
  have hlines : 0 ≤ s.pc ∧ s.pc < (s.params.progLen : Int) ↔ s.fetch ≠ none := by
    rw [ne_eq, State.fetch_eq_none]
    omega
  rw [← State.fetch_eq_none, hlines]
  cases hrs : s.rs with
  | halted => simp [State.signal, hrs]
  | faulted =>
    obtain ⟨r, hr⟩ := Option.isSome_iff_exists.1 (hinv.fault_iff.1 hrs)
    simp [State.signal, hrs, hr]
  | running =>
    cases hfetch : s.fetch with
    | none => simp [signal_of_outside hrs hfetch]
    | some l => simp [State.signal_of_due ⟨hrs, hfetch⟩]

/-- Settles O57: the fields of `State.construct`, and the default parameters by evaluation. -/
theorem resetValues : Obligations.ResetValues := by
  refine ⟨fun p input => ?_, rfl, rfl, rfl, rfl, rfl⟩
  exact ⟨fun j => Memory.read_nil j, rfl, rfl, rfl, rfl, rfl, rfl, rfl, rfl, rfl⟩

end Sys2Proof.Machine
end

section
/-! PROOFS. What a step writes (10_state.md, 20_memory.md section 2, 60_exceptions.md section 4): one frame lemma on
`Effect` for each part of the state, and from it the statement about a step. -/

namespace Sys2Proof.Machine

/-! ### `pc` -/

theorem Effect.pc_cases {s t : State} {i : Instr} (h : Effect s i (.next t)) :
    (t.rs = .faulted ∧ t.pc = s.pc) ∨
    (i = .hlt false ∧ t.pc = s.params.icHalt) ∨
    (∃ target cond z, branchOf i = some (target, cond) ∧ resolve s target = .ok z ∧
      t.pc = if cond s.flags then z else s.pc + 1) ∨
    ((branchOf i = none ∧ i ≠ .hlt false) ∧ t.pc = s.pc + 1) := by
  cases h with
  | badInput => exact .inl ⟨rfl, rfl⟩
  | hlt => exact .inr (.inl ⟨rfl, rfl⟩)
  | branch hbranch _ hz => exact .inr (.inr (.inl ⟨_, _, _, hbranch, hz, rfl⟩))
  | _ => exact .inr (.inr (.inr ⟨⟨rfl, by simp⟩, rfl⟩))

/-- Settles O48: a fatal condition leaves `pc`, an effect writes it once, an unknown line advances it. -/
theorem pcIsWrittenOnceAsListed : Obligations.PcIsWrittenOnceAsListed := by
  unfold Obligations.PcIsWrittenOnceAsListed
  intro s t l hdue hstep
  obtain ⟨l', hdue', hline, hcases⟩ := step_next_cases hstep
  obtain rfl : l' = l := hline.symm.trans (State.due_line hdue)
  rcases hcases with ⟨i, c, -, -, rfl⟩ | ⟨i, hdecode, heffect⟩ | ⟨u, hreject, rfl⟩
  · exact .inl ⟨rfl, rfl⟩
  · rcases heffect.pc_cases with hfault | ⟨rfl, hpc⟩ | ⟨target, cond, z, hbranch, hz, hpc⟩ | ⟨hother, hpc⟩
    · exact .inl hfault
    · exact .inr (.inl ⟨hdecode, hpc⟩)
    · exact .inr (.inr (.inl ⟨i, target, cond, z, hdecode, hbranch, hz, hpc⟩))
    · refine .inr (.inr (.inr ⟨fun i' hi' => ?_, hpc⟩))
      cases hdecode.symm.trans hi'
      exact hother
  · refine .inr (.inr (.inr ⟨fun i hi => ?_, rfl⟩))
    cases hreject.symm.trans hi

/-! ### The run state -/

/-- HLT alone has no condition but the surplus one. -/
theorem leftmost_hlt (p : Params) : leftmost (operandConditions p (.hlt false)) = none := rfl

/-- Settles O50, by what an effect does to the run state. -/
theorem runStateChangesOnlyByHltOrFault : Obligations.RunStateChangesOnlyByHltOrFault := by
  unfold Obligations.RunStateChangesOnlyByHltOrFault
  intro s t hstep
  obtain ⟨l, hdue, rfl, ⟨i, c, hdecode, hc, rfl⟩ | ⟨i, hdecode, heffect⟩ | ⟨u, hreject, rfl⟩⟩ := step_next_cases hstep
  · refine ⟨hdue.1, iff_of_false (by simp) fun hhlt => ?_, fun _ => ⟨c, rfl⟩, fun hne => absurd rfl hne⟩
    cases hdecode.symm.trans hhlt
    cases hc
  · refine ⟨hdue.1, ?_⟩
    rw [hdecode]
    rcases heffect.runState_cases with ⟨hfr, ⟨hi, hrs⟩ | ⟨rfl, hrs⟩⟩ | ⟨⟨d, r, rfl, -⟩, rfl⟩
    · simp [hrs, hdue.1, hfr, hi]
    · simp [hrs, hfr]
    · simp
  · simp [hdue.1, hreject]

/-! ### Parameters and delivered input -/

theorem Effect.params_input {s t : State} {i : Instr} (h : Effect s i (.next t)) :
    t.params = s.params ∧ t.input = s.input := by
  cases h <;> exact ⟨rfl, rfl⟩

theorem step_params_input {s t : State} (h : step s = .next t) : t.params = s.params ∧ t.input = s.input := by
  obtain ⟨l, -, -, ⟨i, c, -, -, rfl⟩ | ⟨i, -, heffect⟩ | ⟨u, -, rfl⟩⟩ := step_next_cases h
  · exact ⟨rfl, rfl⟩
  · exact heffect.params_input
  · exact ⟨rfl, rfl⟩

/-- Settles O51: no effect writes them, and an instruction steps or waits. -/
theorem parametersAndInputNeverChange : Obligations.ParametersAndInputNeverChange := by
  refine ⟨fun s t => step_params_input, fun i s r hrefused => ?_⟩
  rcases exec_next_or_wait i s with ⟨t, ht⟩ | ⟨d, k, rfl, hk, hr⟩
  · cases hrefused.symm.trans ht
  · cases hrefused.symm.trans (exec_intInput_of_no_record hk hr)

/-! ### The channels -/

theorem Effect.events_cases {s t : State} {i : Instr} (h : Effect s i (.next t)) :
    t.events = s.events ∨ ∃ e, t.events = s.events ++ [e] := by
  cases h with
  | divZero | modZero | printValue | printText => exact .inr ⟨_, rfl⟩
  | _ => exact .inl rfl

theorem Effect.out_cases {s t : State} {i : Instr} (h : Effect s i (.next t)) :
    t.out = s.out ∨ (∃ r, i = .intPrintValue r false) ∨ ∃ ts, i = .intPrintText ts := by
  cases h with
  | printValue => exact .inr (.inl ⟨_, rfl⟩)
  | printText => exact .inr (.inr ⟨_, rfl⟩)
  | _ => exact .inl (by simp)

theorem Effect.rep_cases {s t : State} {i : Instr} (h : Effect s i (.next t)) :
    t.rep = s.rep ∨ ∃ c, t.rep = s.rep ++ [⟨c, s.pc, s.line⟩] := by
  cases h with
  | divZero | modZero => exact .inr ⟨_, s.report_rep _⟩
  | _ => exact .inl (by simp)

theorem Effect.inpos_cases {s t : State} {i : Instr} (h : Effect s i (.next t)) :
    t.inpos = s.inpos ∨ t.inpos = s.inpos + 1 ∧ ∃ d, i = .intInput d false := by
  cases h with
  | badInput | input => exact .inr ⟨rfl, _, rfl⟩
  | _ => exact .inl rfl

/-- Settles O52: a fatal condition writes no channel, an effect and the report of an unknown line at most one
record. -/
theorem channelsOnlyGrow : Obligations.ChannelsOnlyGrow := by
  unfold Obligations.ChannelsOnlyGrow
  intro s t hstep
  obtain ⟨l, -, rfl, ⟨i, c, -, -, rfl⟩ | ⟨i, hdecode, heffect⟩ | ⟨u, -, rfl⟩⟩ := step_next_cases hstep
  · exact ⟨.inl rfl, fun h => absurd rfl h, fun h => absurd rfl h, .inl rfl⟩
  · rw [hdecode]
    refine ⟨heffect.events_cases, fun hout => ?_, heffect.rep_cases.resolve_left, ?_⟩
    · exact ⟨i, rfl, heffect.out_cases.resolve_left hout⟩
    · exact heffect.inpos_cases.imp_right fun ⟨hpos, d, hi⟩ => ⟨hpos, d, congrArg _ hi⟩
  · exact ⟨.inr ⟨_, rfl⟩, fun h => absurd (by simp) h, fun _ => ⟨_, s.report_rep _⟩, .inl rfl⟩

/-! ### Memory -/

/-- An effect leaves Memory, or stores to the destination cell and neither faults nor reports. -/
theorem Effect.mem_cases {s t : State} {i : Instr} (h : Effect s i (.next t)) :
    t.mem = s.mem ∨
    ∃ k v, storedCell s i = some k ∧ t.mem = s.mem.write k v ∧ t.rs = s.rs ∧ t.rep = s.rep := by
  cases h with
  | mov hk | add hk | sub hk | mul hk | div hk | mod hk | input hk =>
    exact .inr ⟨_, _, by simp [storedCell, hk, Except.toOption], rfl, rfl, rfl⟩
  | _ => exact .inl rfl

theorem exec_mem_cases {s t : State} {i : Instr} (h : exec i s = .next t) :
    t.mem = s.mem ∨
    ∃ k v, storedCell s i = some k ∧ t.mem = s.mem.write k v ∧ t.rs = s.rs ∧ t.rep = s.rep := by
  rcases exec_next_cases h with ⟨c, -, rfl⟩ | heffect
  · exact .inl rfl
  · exact heffect.mem_cases

/-- Settles O53: a store goes to the stored cell, and behind a store there is no condition of either class. -/
theorem onlyTheDestinationCellChanges : Obligations.OnlyTheDestinationCellChanges := by
  unfold Obligations.OnlyTheDestinationCellChanges
  refine ⟨fun i s t hexec j hj => ?_, fun i s t hexec hcondition hrun => ?_, fun s t r hstep hreject => ?_⟩
  · rcases exec_mem_cases hexec with hmem | ⟨k, v, hk, hmem, -⟩
    · rw [hmem]
    · rw [hmem, Memory.read_write_ne]
      rintro rfl
      exact hj hk
  · rcases exec_mem_cases hexec with hmem | ⟨k, v, -, -, hrs, hrep⟩
    · exact hmem
    · simp [hrs, hrun, hrep] at hcondition
  · obtain ⟨l, hdue, rfl, -⟩ := due_of_next hstep
    cases (step_of_reject hdue hreject).symm.trans hstep
    rfl

/-! ### Entry of a fatal condition -/

theorem srcCondition_ne_invalidInput (p : Params) (a : Src) : srcCondition p a ≠ some .invalidInput := by
  cases a with
  | imm | cell => simp only [srcCondition]; split <;> simp
  | malformed => simp [srcCondition]

theorem dstCondition_ne_invalidInput (p : Params) (d : Dst) : dstCondition p d ≠ some .invalidInput := by
  cases d with
  | cell => simp only [dstCondition]; split <;> simp
  | invalid => simp [dstCondition]

theorem surplusCondition_ne_invalidInput (sp : Bool) : surplusCondition sp ≠ some .invalidInput := by
  cases sp <;> decide

theorem leftmost_mem {cs : List (Option Fatal)} {c : Fatal} (h : leftmost cs = some c) : some c ∈ cs := by
  induction cs with
  | nil => cases h
  | cons o cs ih =>
    cases o with
    | some d => cases h; exact List.mem_cons_self
    | none => exact List.mem_cons_of_mem _ (ih h)

/-- The operands never raise InvalidInput (R130 to R133). -/
theorem leftmost_ne_invalidInput {p : Params} {i : Instr} {c : Fatal}
    (h : leftmost (operandConditions p i) = some c) : c ≠ .invalidInput := by
  rintro rfl
  have hmem := leftmost_mem h
  cases i <;>
    simp [operandConditions, refCondition_eq, (srcCondition_ne_invalidInput _ _).symm,
      (dstCondition_ne_invalidInput _ _).symm, (surplusCondition_ne_invalidInput _).symm] at hmem

/-- Settles O54: Faulted is entered by a condition of the operands, or by a record that is not valid. -/
theorem fatalEntryIsPrecise : Obligations.FatalEntryIsPrecise := by
  unfold Obligations.FatalEntryIsPrecise
  intro s t l hdue hstep hfaulted
  obtain ⟨l', hdue', hline, hcases⟩ := step_next_cases hstep
  obtain rfl : l' = l := hline.symm.trans (State.due_line hdue)
  rcases hcases with ⟨i, c, -, hc, rfl⟩ | ⟨i, -, heffect⟩ | ⟨u, -, rfl⟩
  · exact ⟨c, .inl ⟨leftmost_ne_invalidInput hc, rfl⟩⟩
  · rcases heffect.runState_cases with ⟨-, ⟨-, hrs⟩ | ⟨-, hrs⟩⟩ | ⟨-, rfl⟩
    · cases hdue.1.symm.trans (hrs.symm.trans hfaulted)
    · cases hrs.symm.trans hfaulted
    · exact ⟨_, .inr ⟨rfl, hline ▸ rfl⟩⟩
  · cases hdue.1.symm.trans hfaulted

end Sys2Proof.Machine
end

section
/-! PROOFS. What a step does not look at: the flags but in a branch, the lines but the one at `pc`, the records behind
the next one. A step from a state in which these are changed is the step from the state, changed in the same way. -/

namespace Sys2Proof.Machine

/-- `s` with other flags, another `INPUT` and another program. -/
def State.altered (f : Flags → Flags) (inp : List Line → List Line) (prog : List Line → List Line) (s : State) :
    State :=
  { s with
    params := { s.params with program := prog s.params.program }
    flags := f s.flags
    input := inp s.input }

section
variable {f : Flags → Flags} {inp : List Line → List Line} {prog : List Line → List Line} {s t : State} {i : Instr}

theorem resolve_altered (a : Src) : resolve (s.altered f inp prog) a = resolve s a := by cases a <;> rfl

theorem destCell_altered (d : Dst) : destCell (s.altered f inp prog) d = destCell s d := by cases d <;> rfl

theorem operandConditions_altered (i : Instr) :
    operandConditions (s.altered f inp prog).params i = operandConditions s.params i := by cases i <;> rfl

/-- An effect is the same from an altered state, where the record it consumes and the line are the same and it is not
one that looks at the altered flags or replaces them. -/
theorem Effect.altered (h : Effect s i (.next t))
    (hflags : f = id ∨ branchOf i = none ∧ ∀ a b, i ≠ .cmp a b false)
    (hrecord : ∀ r, s.nextRecord = some r → (s.altered f inp prog).nextRecord = some r)
    (hline : (s.altered f inp prog).line = s.line) :
    Effect (s.altered f inp prog) i (.next (t.altered f inp prog)) := by
  have hsrc : ∀ {a x}, resolve s a = .ok x → resolve (s.altered f inp prog) a = .ok x :=
    fun {a _} => (resolve_altered a).trans
  have hdst : ∀ {d k}, destCell s d = .ok k → destCell (s.altered f inp prog) d = .ok k :=
    fun {d _} => (destCell_altered d).trans
  have hreport : ∀ c,
      ((s.altered f inp prog).report c).advance = (s.report c).advance.altered f inp prog := fun c => by
    rw [State.report, hline]
    rfl
  cases h with
  | mov hk hx => exact .mov (hdst hk) (hsrc hx)
  | add hk hx hy => exact .add (hdst hk) (hsrc hx) (hsrc hy)
  | sub hk hx hy => exact .sub (hdst hk) (hsrc hx) (hsrc hy)
  | mul hk hx hy => exact .mul (hdst hk) (hsrc hx) (hsrc hy)
  | div hk hx hy h0 => exact .div (hdst hk) (hsrc hx) (hsrc hy) h0
  | mod hk hx hy h0 => exact .mod (hdst hk) (hsrc hx) (hsrc hy) h0
  | divZero hk hx hy => exact hreport _ ▸ .divZero (hdst hk) (hsrc hx) (hsrc hy)
  | modZero hk hx hy => exact hreport _ ▸ .modZero (hdst hk) (hsrc hx) (hsrc hy)
  | cmp hx hy =>
    rcases hflags with rfl | ⟨-, hcmp⟩
    · exact .cmp (hsrc hx) (hsrc hy)
    · exact absurd rfl (hcmp _ _)
  | branch hbranch hexec hx =>
    rcases hflags with rfl | ⟨hnone, -⟩
    · exact .branch hbranch hexec (hsrc hx)
    · cases hbranch.symm.trans hnone
  | printValue hx => exact .printValue (hsrc hx)
  | printText => exact .printText
  | badInput hk hr hv =>
    have hbad := Effect.badInput (hdst hk) (hrecord _ hr) hv
    rw [hline] at hbad
    exact hbad
  | input hk hr hv => exact .input (hdst hk) (hrecord _ hr) hv
  | hlt => exact .hlt
  | blankLine => exact .blankLine

theorem exec_altered (h : exec i s = .next t)
    (hflags : f = id ∨ branchOf i = none ∧ ∀ a b, i ≠ .cmp a b false)
    (hrecord : ∀ r, s.nextRecord = some r → (s.altered f inp prog).nextRecord = some r)
    (hline : (s.altered f inp prog).line = s.line) :
    exec i (s.altered f inp prog) = .next (t.altered f inp prog) := by
  rcases exec_next_cases h with ⟨c, hc, rfl⟩ | heffect
  · rw [exec_of_condition ((congrArg leftmost (operandConditions_altered i)).trans hc), hline]
    rfl
  · exact exec_of_effect (heffect.altered hflags hrecord hline)

theorem step_altered (h : step s = .next t)
    (hrecord : ∀ r, s.nextRecord = some r → (s.altered id inp prog).nextRecord = some r)
    (hfetch : (s.altered id inp prog).fetch = s.fetch) :
    step (s.altered id inp prog) = .next (t.altered id inp prog) := by
  obtain ⟨l, hdue, -, ⟨i, hdecode, hexec⟩ | ⟨u, hreject, rfl⟩⟩ := due_of_next h
  all_goals
    have hdue' : (s.altered id inp prog).due l := ⟨hdue.1, hfetch.trans hdue.2⟩
    have hline : (s.altered id inp prog).line = s.line :=
      (State.due_line hdue').trans (State.due_line hdue).symm
  · rw [step_of_decode hdue' hdecode, exec_altered hexec (.inl rfl) hrecord hline]
  · rw [step_of_reject hdue' hreject, State.report, hline]
    rfl

end

/-! ### The flags -/

theorem Effect.flags_cases {s t : State} {i : Instr} (h : Effect s i (.next t)) : t.flags = s.flags ∨
    ∃ a b x y, i = .cmp a b false ∧ resolve s a = .ok x ∧ resolve s b = .ok y ∧ t.flags = compareFlags x y := by
  cases h with
  | cmp hx hy => exact .inr ⟨_, _, _, _, rfl, hx, hy, rfl⟩
  | _ => exact .inl rfl

/-- Settles O49: CMP is the one effect on the flags, and the branches are the ones that look at them. -/
theorem onlyCmpWritesAndBranchesReadFlags : Obligations.OnlyCmpWritesAndBranchesReadFlags := by
  unfold Obligations.OnlyCmpWritesAndBranchesReadFlags
  refine ⟨fun i s t hexec => ?_, fun i s t f hbranch hcmp hexec => ?_, fun s t a b x y f hx hy hexec => ?_,
    fun s l r hdue hreject => ⟨_, step_of_reject hdue hreject, rfl⟩⟩
  · rcases exec_next_cases hexec with ⟨c, -, rfl⟩ | heffect
    · exact .inl rfl
    · exact heffect.flags_cases
  · exact exec_altered (f := fun _ => f) (inp := id) (prog := id) hexec (.inr ⟨hbranch, hcmp⟩) (fun _ => id) rfl
  · cases (exec_cmp_of_ok hx hy).symm.trans hexec
    exact exec_cmp_of_ok ((resolve_altered (f := fun _ => f) (inp := id) (prog := id) a).trans hx)
      ((resolve_altered (f := fun _ => f) (inp := id) (prog := id) b).trans hy)

/-! ### The program -/

/-- A state waits whatever the other lines of the program are. -/
theorem State.waits_altered {s : State} {prog : List Line → List Line} (h : s.waits)
    (hfetch : (s.altered id id prog).fetch = s.fetch) : (s.altered id id prog).waits := by
  obtain ⟨l, d, k, hdue, hdecode, hk, hrecord⟩ := h
  exact ⟨l, d, k, ⟨hdue.1, hfetch.trans hdue.2⟩, hdecode, (destCell_altered d).trans hk, hrecord⟩

/-- Settles O55: the step of a due line, or its wait, is the same with the other lines altered. -/
theorem onlyTheFetchedLineMatters : Obligations.OnlyTheFetchedLineMatters := by
  unfold Obligations.OnlyTheFetchedLineMatters
  intro s l prog hdue hl
  change step (s.altered id id fun _ => prog) = _
  have hfetch : (s.altered id id fun _ => prog).fetch = s.fetch := by
    rw [hdue.2]
    exact (State.fetch_eq_some _).2 ⟨(s.fetch_eq_some.1 hdue.2).1, hl⟩
  rcases step_next_or_waits_of_due hdue with ⟨t, ht⟩ | hwaits
  · rw [step_altered ht (fun _ => id) hfetch, ht]
    rfl
  · rw [step_of_waits hwaits, step_of_waits (State.waits_altered hwaits hfetch)]
    rfl

/-! ### Records behind the next one -/

theorem State.nextRecord_deliver_of_some {s : State} {r : Line} (h : s.nextRecord = some r) (r' : Line) :
    (s.deliver r').nextRecord = some r :=
  (List.getElem?_append_left (List.getElem?_eq_some_iff.1 h).1).trans h

theorem step_deliver {s t : State} (h : step s = .next t) (r : Line) : step (s.deliver r) = .next (t.deliver r) :=
  step_altered (inp := (· ++ [r])) (prog := id) h (fun _ hr => State.nextRecord_deliver_of_some hr r) rfl

/-- A step takes nothing off `INPUT`, so the same record is next to be delivered behind it. -/
theorem step_feed {s t : State} (h : step s = .next t) (inp : Input) :
    step (s.feed inp) = .next (t.feed inp) := by
  have hinput : t.input = s.input := (step_params_input h).2
  rcases s.feed_cases inp with ⟨hnone, hfeed⟩ | ⟨r, hr, hfeed⟩
  · rw [hfeed, State.feed_of_none (hinput ▸ hnone), h]
  · rw [hfeed, State.feed_of_some (hinput ▸ hr), step_deliver h r]

/-- A change of the state that every step of a run commutes with, the run commutes with. -/
theorem State.nth_map {g : State → State} {inp : Input}
    (hg : ∀ u v, stepOn inp u = .next v → stepOn inp (g u) = .next (g v)) {s t : State} {n : Nat}
    (h : s.nth inp n = some t) : (g s).nth inp n = some (g t) := by
  induction n generalizing s with
  | zero => cases h; rfl
  | succ n ih =>
    obtain ⟨u, hu, hrest⟩ := nth_succ_cases h
    rw [nth_succ_of_next (hg s u hu), ih hrest]

/-- On the empty `INPUT` nothing is delivered. -/
theorem stepOn_empty (s : State) : stepOn (Input.ofList []) s = step s := rfl

theorem stepOn_empty_deliver (r : Line) {s t : State} (h : stepOn (Input.ofList []) s = .next t) :
    stepOn (Input.ofList []) (s.deliver r) = .next (t.deliver r) := by
  rw [stepOn_empty] at h ⊢
  exact step_deliver h r

/-- Settles O56: a step commutes with delivery, and so does a run. -/
theorem laterRecordsAreNotRead : Obligations.LaterRecordsAreNotRead :=
  ⟨fun _ _ r h => step_deliver h r,
    fun _ _ r _ h => State.nth_map (g := (State.deliver · r)) (fun _ _ => stepOn_empty_deliver r) h,
    fun inp _ _ _ h => State.nth_map (g := (State.feed · inp)) (fun _ _ hstep => step_feed hstep inp) h⟩

end Sys2Proof.Machine
end

section
/-! PROOFS. The run (R123, R157): each run goes on for ever, ends or waits, in one place, and execution under fuel
finds the place if the fuel lasts. -/

namespace Sys2Proof.Machine

namespace State

/-! ### The states of a run -/

/-- A run that has `n` steps has every smaller number of steps. -/
theorem nth_of_le {s u : State} {inp : Input} {m n : Nat} (hmn : m ≤ n) (h : s.nth inp n = some u) :
    ∃ t, s.nth inp m = some t := by
  induction m generalizing s n with
  | zero => exact ⟨s, rfl⟩
  | succ m ih =>
    obtain ⟨n, rfl⟩ := Nat.exists_eq_add_of_le' hmn
    obtain ⟨t, ht, hrest⟩ := nth_succ_cases (n := n + m) (by simpa [Nat.add_assoc] using h)
    obtain ⟨v, hv⟩ := ih (Nat.le_add_left m n) hrest
    exact ⟨v, (nth_succ_of_next ht m).trans hv⟩

theorem nth_succ_iff {s t : State} {inp : Input} {n : Nat} (h : s.nth inp n = some t) (u : State) :
    s.nth inp (n + 1) = some u ↔ step (t.feed inp) = .next u := by
  rw [nth_add h 1, nth_one]
  rfl

theorem nth_succ_eq_none {s : State} {inp : Input} {n : Nat} (h : s.nth inp n = none) :
    s.nth inp (n + 1) = none := by
  refine Option.eq_none_iff_forall_ne_some.2 fun u hu => ?_
  obtain ⟨t, ht⟩ := nth_of_le (Nat.le_succ n) hu
  cases h.symm.trans ht

/-! ### Where a run stops -/

/-- The run stops after `n` steps in `t`: it has ended there, or waits. -/
def StopsAt (s : State) (inp : Input) (n : Nat) (t : State) : Prop := s.EndsAt inp n t ∨ s.WaitsAt inp n t

/-- The three ways a step of a run can turn out. -/
theorem stepOn_outcome (s : State) (inp : Input) :
    (∃ t, stepOn inp s = .next t) ∨ s.terminal = true ∨ stepOn inp s = .fault .waitingForInput := by
  rw [← feed_terminal s inp]
  rcases step_outcome (s.feed inp) with ⟨hrs, -⟩ | ⟨hrs, -⟩ | ⟨-, hfetch, -⟩ | ⟨-, -, hnext | hwait⟩
  · exact .inr (.inl ((terminal_iff _).2 (.inl (by rw [hrs]; decide))))
  · exact .inr (.inl ((terminal_iff _).2 (.inl (by rw [hrs]; decide))))
  · exact .inr (.inl ((terminal_iff _).2 (.inr ((fetch_eq_none _).1 hfetch))))
  · exact .inl hnext
  · exact .inr (.inr hwait)

/-- A run has no step behind the place where it stops. -/
theorem StopsAt.no_next {s t : State} {inp : Input} {n : Nat} (h : s.StopsAt inp n t) :
    s.nth inp n = some t ∧ s.nth inp (n + 1) = none := by
  obtain ⟨ht, hstop⟩ : s.nth inp n = some t ∧ ∀ u, stepOn inp t ≠ .next u := by
    rcases h with ⟨ht, hterminal⟩ | ⟨ht, hwait⟩
    · exact ⟨ht, (run_of_terminal hterminal inp 0).1⟩
    · exact ⟨ht, fun u hu => by cases hwait.symm.trans hu⟩
  refine ⟨ht, Option.eq_none_iff_forall_ne_some.2 fun u hu => ?_⟩
  exact hstop u ((nth_succ_iff ht u).1 hu)

/-- A run that has more steps has not stopped before. -/
theorem StopsAt.not_lt {s t u : State} {inp : Input} {m n : Nat} (h : s.StopsAt inp m t)
    (hn : s.nth inp n = some u) : n ≤ m := by
  by_contra hlt
  obtain ⟨v, hv⟩ := nth_of_le (Nat.lt_of_not_le hlt) hn
  cases h.no_next.2.symm.trans hv

/-- A run stops in one place. -/
theorem StopsAt.unique {s t u : State} {inp : Input} {m n : Nat} (hm : s.StopsAt inp m t)
    (hn : s.StopsAt inp n u) : m = n ∧ t = u := by
  obtain rfl : m = n := Nat.le_antisymm (hn.not_lt hm.no_next.1) (hm.not_lt hn.no_next.1)
  exact ⟨rfl, Option.some.inj (hm.no_next.1.symm.trans hn.no_next.1)⟩

/-- A terminal state does not wait. -/
theorem not_endsAt_and_waitsAt {s t : State} {inp : Input} {m n : Nat} :
    ¬ (s.EndsAt inp m t ∧ s.WaitsAt inp n t) := by
  rintro ⟨⟨-, hterminal⟩, -, hwait⟩
  exact (run_of_terminal hterminal inp 0).2.1 hwait

/-- A run without `n` steps stops. -/
theorem exists_stopsAt_of_nth_eq_none {s : State} {inp : Input} {n : Nat} (h : s.nth inp n = none) :
    ∃ m t, s.StopsAt inp m t := by
  induction n generalizing s with
  | zero => cases h
  | succ n ih =>
    rcases stepOn_outcome s inp with ⟨u, hu⟩ | hterminal | hwait
    · obtain ⟨m, t, hstop⟩ := ih ((nth_succ_of_next hu n).symm.trans h)
      refine ⟨m + 1, t, hstop.imp ?_ ?_⟩ <;> exact fun hm => ⟨(nth_succ_of_next hu m).trans hm.1, hm.2⟩
    · exact ⟨0, s, .inl ⟨rfl, hterminal⟩⟩
    · exact ⟨0, s, .inr ⟨rfl, hwait⟩⟩

theorem not_runsForever_iff {s : State} {inp : Input} :
    ¬ s.RunsForever inp ↔ ∃ n t, s.StopsAt inp n t := by
  constructor
  · intro h
    obtain ⟨n, hn⟩ := not_forall.1 h
    exact exists_stopsAt_of_nth_eq_none (Option.eq_none_iff_forall_ne_some.2 (not_exists.1 hn))
  · rintro ⟨n, t, hstop⟩ hforever
    obtain ⟨u, hu⟩ := hforever (n + 1)
    cases hstop.no_next.2.symm.trans hu

/-! ### The record a run waits for -/

/-- No step consumes a record that has not been delivered (R30). -/
theorem step_inpos_le {s t : State} (h : s.inpos ≤ s.input.length) (hstep : step s = .next t) :
    t.inpos ≤ t.input.length := by
  obtain ⟨l, -, -, ⟨i, c, -, -, rfl⟩ | ⟨i, -, heffect⟩ | ⟨u, -, rfl⟩⟩ := step_next_cases hstep
  · exact h
  · cases heffect with
    | badInput _ hr => exact (List.getElem?_eq_some_iff.1 hr).1
    | input _ hr => exact (List.getElem?_eq_some_iff.1 hr).1
    | _ => exact h
  · exact h

theorem stepOn_inpos_le {inp : Input} {s t : State} (h : s.inpos ≤ s.input.length)
    (hstep : stepOn inp s = .next t) : t.inpos ≤ t.input.length := by
  refine step_inpos_le ?_ hstep
  rcases s.feed_cases inp with ⟨-, hfeed⟩ | ⟨r, -, hfeed⟩ <;> rw [hfeed]
  · exact h
  · rw [deliver_inpos, deliver_input, List.length_append]
    exact Nat.le_add_right_of_le h

theorem waits_of_waitsAt {s t : State} {inp : Input} {n : Nat} (h : s.inpos ≤ s.input.length)
    (hwait : s.WaitsAt inp n t) : t.waits ∧ t.inpos = t.input.length ∧ inp t.inpos = none := by
  obtain ⟨ht, hstep⟩ := hwait
  have hle : t.inpos ≤ t.input.length :=
    nth_induction (P := fun u => u.inpos ≤ u.input.length) (fun _ _ => stepOn_inpos_le) h ht
  have hwaits : (t.feed inp).waits := step_waiting_iff.1 hstep
  have hnorecord : (t.feed inp).input.length ≤ t.inpos := by
    obtain ⟨-, -, -, -, -, -, hrecord⟩ := hwaits
    simpa using List.getElem?_eq_none_iff.1 hrecord
  rcases t.feed_cases inp with ⟨hnone, hfeed⟩ | ⟨r, -, hfeed⟩
  · rw [hfeed] at hwaits hnorecord
    have hall : t.inpos = t.input.length := Nat.le_antisymm hle hnorecord
    exact ⟨hwaits, hall, hall ▸ hnone⟩
  · rw [hfeed, deliver_input, List.length_append, List.length_singleton] at hnorecord
    omega

end State

/-! ### Execution under fuel -/

/-- What execution finds: the place where the run stops, if it has at most as many steps as there is fuel, and else
the state at which the fuel is used up. -/
theorem run_cases (inp : Input) (fuel : Nat) (s : State) :
    (∃ n ≤ fuel, ∃ t, s.EndsAt inp n t ∧ run inp fuel s = .ended t) ∨
    (∃ n ≤ fuel, ∃ t, s.WaitsAt inp n t ∧ run inp fuel s = .waiting t) ∨
    ∃ t u, s.nth inp fuel = some t ∧ stepOn inp t = .next u ∧ run inp fuel s = .outOfFuel t := by
  rcases s.stepOn_outcome inp with ⟨v, hv⟩ | hterminal | hwait
  · cases fuel with
    | zero => exact .inr (.inr ⟨s, v, rfl, hv, run_zero_of_next hv⟩)
    | succ fuel =>
      rw [run_of_next hv, State.nth_succ_of_next hv]
      rcases run_cases inp fuel v with ⟨n, hn, t, ht, hrun⟩ | ⟨n, hn, t, ht, hrun⟩ | hfuel
      · exact .inl ⟨n + 1, Nat.succ_le_succ hn, t, ⟨(State.nth_succ_of_next hv n).trans ht.1, ht.2⟩, hrun⟩
      · exact .inr (.inl ⟨n + 1, Nat.succ_le_succ hn, t, ⟨(State.nth_succ_of_next hv n).trans ht.1, ht.2⟩, hrun⟩)
      · exact .inr (.inr hfuel)
  · exact .inl ⟨0, Nat.zero_le _, s, ⟨rfl, hterminal⟩, (run_of_terminal hterminal inp fuel).2.2⟩
  · exact .inr (.inl ⟨0, Nat.zero_le _, s, ⟨rfl, hwait⟩, run_of_waiting hwait fuel⟩)
termination_by fuel

/-- A run that has a further step than there is fuel does not stop within the fuel. -/
theorem State.StopsAt.fuel_lt {s t u v : State} {inp : Input} {n fuel : Nat} (h : s.StopsAt inp n t)
    (hu : s.nth inp fuel = some u) (hv : stepOn inp u = .next v) : fuel < n :=
  h.not_lt ((State.nth_succ_iff hu v).2 hv)

section
variable {inp : Input} {fuel : Nat} {s t : State}

theorem run_eq_ended_iff : run inp fuel s = .ended t ↔ ∃ n ≤ fuel, s.EndsAt inp n t := by
  rcases run_cases inp fuel s with ⟨n, hn, u, hu, hrun⟩ | ⟨n, hn, u, hu, hrun⟩ | ⟨u, v, hu, hv, hrun⟩ <;> rw [hrun]
  · constructor
    · rintro ⟨⟩
      exact ⟨n, hn, hu⟩
    · rintro ⟨m, -, ht⟩
      rw [(State.StopsAt.unique (.inl hu) (.inl ht)).2]
  · refine iff_of_false (by simp) ?_
    rintro ⟨m, -, ht⟩
    obtain ⟨rfl, rfl⟩ := State.StopsAt.unique (.inr hu) (.inl ht)
    exact State.not_endsAt_and_waitsAt ⟨ht, hu⟩
  · refine iff_of_false (by simp) ?_
    rintro ⟨m, hm, ht⟩
    exact absurd (State.StopsAt.fuel_lt (.inl ht) hu hv) (Nat.not_lt.2 hm)

theorem run_eq_waiting_iff : run inp fuel s = .waiting t ↔ ∃ n ≤ fuel, s.WaitsAt inp n t := by
  rcases run_cases inp fuel s with ⟨n, hn, u, hu, hrun⟩ | ⟨n, hn, u, hu, hrun⟩ | ⟨u, v, hu, hv, hrun⟩ <;> rw [hrun]
  · refine iff_of_false (by simp) ?_
    rintro ⟨m, -, ht⟩
    obtain ⟨rfl, rfl⟩ := State.StopsAt.unique (.inl hu) (.inr ht)
    exact State.not_endsAt_and_waitsAt ⟨hu, ht⟩
  · constructor
    · rintro ⟨⟩
      exact ⟨n, hn, hu⟩
    · rintro ⟨m, -, ht⟩
      rw [(State.StopsAt.unique (.inr hu) (.inr ht)).2]
  · refine iff_of_false (by simp) ?_
    rintro ⟨m, hm, ht⟩
    exact absurd (State.StopsAt.fuel_lt (.inr ht) hu hv) (Nat.not_lt.2 hm)

theorem run_eq_outOfFuel_iff :
    run inp fuel s = .outOfFuel t ↔ s.nth inp fuel = some t ∧ ∃ u, stepOn inp t = .next u := by
  have hstopped : ∀ {n u}, n ≤ fuel → s.StopsAt inp n u →
      ¬ (s.nth inp fuel = some t ∧ ∃ v, stepOn inp t = .next v) := by
    rintro n u hn hstop ⟨ht, v, hv⟩
    exact absurd (hstop.fuel_lt ht hv) (Nat.not_lt.2 hn)
  rcases run_cases inp fuel s with ⟨n, hn, u, hu, hrun⟩ | ⟨n, hn, u, hu, hrun⟩ | ⟨u, v, hu, hv, hrun⟩ <;> rw [hrun]
  · exact iff_of_false (by simp) (hstopped hn (.inl hu))
  · exact iff_of_false (by simp) (hstopped hn (.inr hu))
  · constructor
    · rintro ⟨⟩
      exact ⟨hu, v, hv⟩
    · rintro ⟨ht, -⟩
      cases hu.symm.trans ht
      rfl

theorem run_ne_refused (r : Refusal) : run inp fuel s ≠ .refused t r := by
  rcases run_cases inp fuel s with ⟨n, -, u, -, hrun⟩ | ⟨n, -, u, -, hrun⟩ | ⟨u, v, -, -, hrun⟩ <;> rw [hrun] <;> simp

/-- A state from which the run has a step has no termination signal (R122). -/
theorem State.signal_of_stepOn_next (h : stepOn inp s = .next t) : s.signal = none := by
  obtain ⟨l, hdue, -⟩ := due_of_next h
  exact State.signal_of_due ((s.feed_due inp l).1 hdue)

/-- A run that goes on for ever uses up any fuel, and reports no signal. -/
theorem runsForever_iff : s.RunsForever inp ↔ ∀ fuel, ∃ t, run inp fuel s = .outOfFuel t ∧ t.signal = none ∧
    (run inp fuel s).signal = none := by
  constructor
  · intro hforever fuel
    obtain ⟨t, ht⟩ := hforever fuel
    obtain ⟨u, hu⟩ := hforever (fuel + 1)
    have hstep : stepOn inp t = .next u := (State.nth_succ_iff ht u).1 hu
    have hrun : run inp fuel s = .outOfFuel t := run_eq_outOfFuel_iff.2 ⟨ht, u, hstep⟩
    exact ⟨t, hrun, State.signal_of_stepOn_next hstep, by rw [hrun]; rfl⟩
  · intro h n
    obtain ⟨t, hrun, -⟩ := h n
    exact ⟨t, (run_eq_outOfFuel_iff.1 hrun).1⟩

end

/-- Settles O60: what a run does by the ways a step can turn out, and what execution finds by recursion on the fuel. -/
theorem runEndsWaitsOrGoesOn : Obligations.RunEndsWaitsOrGoesOn := by
  unfold Obligations.RunEndsWaitsOrGoesOn
  refine fun inp => ⟨fun s => ⟨rfl, fun _ _ => State.nth_succ_iff, fun _ => State.nth_succ_eq_none⟩,
    fun _ => State.not_runsForever_iff, fun s t u m n ht hu => ?_, fun _ _ _ => State.waits_of_waitsAt,
    fun s t fuel => ⟨run_eq_ended_iff, run_eq_waiting_iff, run_eq_outOfFuel_iff, run_ne_refused⟩,
    fun _ => runsForever_iff⟩
  obtain ⟨hmn, htu⟩ := State.StopsAt.unique ht hu
  exact ⟨hmn, htu, State.not_endsAt_and_waitsAt⟩

end Sys2Proof.Machine
end
